-- ==== Sys2Proof/Word.lean ====
section
/-! DEFINITION. The words and bytes of the engine (spec R8): every state word, register and command word is an
unsigned 32-bit value, a byte is an unsigned 8-bit value, and no value is signed. -/

namespace Sys2Proof

/-- A state word, operand register or command word (R8: 32 bits, unsigned). -/
abbrev Word := BitVec 32

/-- A byte of shared memory or of a keystream block (R8: 8 bits, unsigned). -/
abbrev Byte := BitVec 8

/-- The 16 words of the cipher state `S`, and of the working array `X` of a block generation (R20, R39). -/
abbrev Words := Vector Word 16

/-- The 64 bytes of one keystream block, and of `KBUF` (R30, R137). -/
abbrev KeystreamBlock := Vector Byte 64

end Sys2Proof
end

