-- ==== Sys2Proof/Config.lean ====
section
/-! DEFINITION. What a platform fixes (the OPEN parameters of R7, held as plain data in State and never written by a
step) and the free values (constants with no body, about which nothing can be proved). -/

namespace Sys2Proof

/-- A range of engine bus addresses, `base` to `base + size - 1`. -/
structure Region where
  base : Nat
  size : Nat
  deriving DecidableEq, Repr

/-- The platform the engine is built into: the OPEN parameters of R7 that some rule depends on.
`CMD_LATENCY` and `QR_UNITS` are OPEN and unobservable (R243, R141, I15: a model may ignore both). -/
structure Platform where
  /-- `MEM_SIZE`: the bytes of shared memory the master port reaches, at addresses 0 to `memSize - 1` (R50). -/
  memSize : Nat
  /-- `REG_BASE`: the host address of the 256-byte register window (R33). -/
  regBase : Nat
  /-- `IETF_WRAP_CARRY`: whether a word-12 wrap in the `IETF` layout increments word 13 (R152). -/
  ietfWrapCarry : Bool
  /-- The ranges of engine bus addresses whose reads or writes have side effects (R57): no plain memory. -/
  devices : List Region
  deriving DecidableEq, Repr

/-- What a free byte is used for: each use has free values of its own. -/
inductive FreeUse where
  /-- A destination byte of an `ENCRYPT` whose buffers partially overlap (R59). -/
  | overlap
  /-- A byte the engine reads while another bus master writes it (R64). -/
  | racedRead
  /-- A destination byte that another bus master writes while the engine writes it (R237). -/
  | racedWrite
  /-- A choice between a destination byte's old and new value, as another bus master sees it (R64). -/
  | peerChoice
  /-- A byte another bus master reads while some other master writes it (R237). -/
  | peerRead
  /-- A destination byte of a command that a reset interrupts (R232). -/
  | resetDuring
  /-- A byte of what a host reads from the window while the reset is asserted (R230). -/
  | resetRead
  deriving DecidableEq, Repr

/-- A free byte: for each use, the `k`-th byte of the `event`-th draw. It has no body, so nothing can be proved of
its value (assumption log 7). -/
opaque Config.freeByte : (use : FreeUse) → (event : Nat) → (k : Nat) → Byte

/-- The value of `IETF_WRAP_CARRY` on the platform of `State.reset`. The spec leaves it open (R152, D14), so it has no
body; a state may carry either value (assumption log 3). -/
opaque Config.ietfWrapCarry : Bool

/-- `n` free bytes of one draw. -/
def Config.freeBytes (use : FreeUse) (event n : Nat) : List Byte :=
  (List.range n).map (Config.freeByte use event)

end Sys2Proof
end

