-- ==== Sys2Proof/Syntax.lean ====
section
/-! DEFINITION. The commands of the engine: one constructor per row of spec/opcode_table.json (R72, R73). -/

namespace Sys2Proof

/-- A command (R72). `INIT` carries the key length and the nonce length in bytes, as counts; the field widths
are checked by `Instr.wf`. Every other operand stands in an operand register (R75). -/
inductive Instr where
  /-- `NOP` (R160); `CLRERR` is the same word (R78). -/
  | nop
  /-- `INIT klen, nlen` (R120). -/
  | init (klen nlen : Nat)
  /-- `ENCRYPT` (R162); `DECRYPT` is the same word (R78). -/
  | encrypt
  /-- `KEYSTREAM` (R163). -/
  | keystream
  deriving DecidableEq, Repr

end Sys2Proof
end

