-- ==== Sys2Proof/WellFormed.lean ====
section
/-! DEFINITION. Which commands and which platforms the spec has. -/

namespace Sys2Proof

/-- `KLEN` and `NLEN` are 8-bit fields: `0 <= klen, nlen <= 255` (R75, R77). Whether a length is a legal key or nonce
length is checked by `INIT` itself, not here (R75). -/
def Instr.wf : Instr → Bool
  | .nop => true
  | .init klen nlen => klen ≤ 255 && nlen ≤ 255
  | .encrypt => true
  | .keystream => true

/-- The platforms the spec allows: `1 <= MEM_SIZE <= 2^32`, `REG_BASE` a multiple of 0x100 (R7), and the register window
outside the range the master port reaches (R61: a model must refuse the others). -/
def Platform.wf (p : Platform) : Bool :=
  1 ≤ p.memSize && p.memSize ≤ 2 ^ 32 && p.regBase % 0x100 == 0 && p.memSize ≤ p.regBase

end Sys2Proof
end

