-- ==== Sys2Proof/Decode.lean ====
section
/-! DEFINITION. Decoding of a command word (R70 to R76), total on every 32-bit word and rejecting by name; then the
encoder (R77). -/

namespace Sys2Proof

/-- Why a word is no legal command (R74). Each of them raises `ILLEGAL_COMMAND` (R202); the name only says which part
of the word is at fault (assumption log 13). -/
inductive DecodeError where
  /-- `OP` = 0x4 to 0xF. -/
  | reservedOp (op : Nat)
  /-- `RSV0` or `RSV1` is not 0. -/
  | reservedField
  /-- `NLEN` or `KLEN` is not 0 in a `NOP`, `ENCRYPT` or `KEYSTREAM` word. -/
  | strayLength
  deriving DecidableEq, Repr

/-- `OP = w[3:0]` (R71). -/
def fieldOp (w : Word) : Nat := (w.extractLsb' 0 4).toNat

/-- `NLEN = w[15:8]`, zero-extended (R71, R75). -/
def fieldNlen (w : Word) : Nat := (w.extractLsb' 8 8).toNat

/-- `KLEN = w[23:16]`, zero-extended (R71, R75). -/
def fieldKlen (w : Word) : Nat := (w.extractLsb' 16 8).toNat

/-- Which part of an illegal word is at fault (R74). -/
def illegalReason (w : Word) : DecodeError :=
  if 4 ≤ fieldOp w then .reservedOp (fieldOp w)
  else if w.extractLsb' 4 4 ≠ 0 ∨ w.extractLsb' 24 8 ≠ 0 then .reservedField
  else .strayLength

/-- The decoder, R76 line by line. -/
def decode (w : Word) : Except DecodeError Instr :=
  if w = 0x00000000#32 then .ok .nop
  else if w &&& 0xFF0000FF#32 = 0x00000001#32 then .ok (.init (fieldKlen w) (fieldNlen w))
  else if w = 0x00000002#32 then .ok .encrypt
  else if w = 0x00000003#32 then .ok .keystream
  else .error (illegalReason w)

/-- The command word of a table entry: the low 32 bits of an `nbits`-bit number. A command is one 32-bit word and has no
longer form (R70), and a register value is a number, not bytes (R54), so there is no byte order to apply. -/
def tableWord (nbits w : Nat) : Word := BitVec.ofNat 32 (w % 2 ^ nbits)

/-- What the decoder reads from an opcode-table word. -/
def decodeTableWord (nbits w : Nat) : Option Instr :=
  match decode (tableWord nbits w) with
  | .ok i => some i
  | .error _ => none

/-- The command word of an instruction (R77). -/
def encode : Instr → Word
  | .nop => 0x00000000#32
  | .init klen nlen => 0x00000001#32 + (BitVec.ofNat 32 klen <<< 16) + (BitVec.ofNat 32 nlen <<< 8)
  | .encrypt => 0x00000002#32
  | .keystream => 0x00000003#32

end Sys2Proof
end

