-- ==== Sys2Proof/Machine/State.lean ====
section
/-! DEFINITION. The state of the machine: the engine's state (R20 to R40), shared memory (R50), the platform (R7) and
the bus through which hosts drive the engine (R33, R107). Plain data throughout. -/

namespace Sys2Proof.Machine

/-- The layout of words 12 to 15 (R26): `LAYOUT` = 0 is `IETF`, 1 is `EXT`. -/
inductive Layout where
  | ietf
  | ext
  deriving DecidableEq, Repr

/-- The result codes of `STATUS.ERR` (R200). Codes 6 to 15 are never produced (I18). -/
inductive ErrCode where
  | ok
  | invalidKeyLength
  | invalidNonceLength
  | bufferTooSmall
  | notInitialized
  | illegalCommand
  deriving DecidableEq, Repr

/-- What the keystream sequencer reads and writes: the state words, the layout, the sticky `WRAP` flag, the buffered
block and the keystream position (R20, R26, R28, R30). -/
structure Stream where
  /-- `S[0]` to `S[15]` (R20). -/
  S : Words
  /-- `LAYOUT` (R26). -/
  layout : Layout
  /-- `WRAP` (R28). -/
  wrap : Bool
  /-- `KBUF`: the most recently generated keystream block (R30). -/
  kbuf : KeystreamBlock
  /-- `KPOS`: the index of the next unused byte of `KBUF`, 0 when none is buffered (R30). -/
  kpos : BitVec 6
  deriving DecidableEq, Repr

/-- Shared memory: the bytes that differ from what an unlisted address reads as, by rising address (R50, R51). -/
abbrev Memory := List Host.Cell

/-- What an address reads as that nothing has written. The spec gives shared memory no reset contents (R232); its
test vectors take memory not named as 0x00 (DESIGN CHOICE, assumption log 1). -/
def Memory.unlisted (_addr : Nat) : Byte := 0x00#8

/-- The canonical form: strictly rising addresses, and no entry that an unlisted address would read the same. -/
abbrev Memory.wf (m : Memory) : Prop :=
  m.Pairwise (fun c d => c.1 < d.1) ∧ ∀ c ∈ m, c.2 ≠ Memory.unlisted c.1

/-- The registers of the window (R33). -/
inductive Reg where
  | cmd
  | status
  | kpos
  | src
  | dst
  | len
  | keyaddr
  | nonceaddr
  | ctrinit
  /-- `S0` to `S15`. -/
  | s (i : Fin 16)
  deriving DecidableEq, Repr

/-- What reaches the engine or the shared memory from outside: the bus transactions of the hosts, in the order in which
the bus performs them (R107), and the reset input (R230). Addresses of window accesses are host addresses, widths are in
bytes; addresses of memory accesses are engine bus addresses (R61; assumption logs 16 and 17). -/
inductive Txn where
  /-- A write to the register window (R100); `WR` of R79. -/
  | write (addr width : Nat) (v : Word)
  /-- A read of the register window (R102); `RD` of R79. -/
  | read (addr width : Nat)
  /-- A host writes a byte of shared memory; one byte of `MWR` of R79. -/
  | memWrite (addr : Nat) (v : Byte)
  /-- A host reads a byte of shared memory; one byte of `MRD` of R79. -/
  | memRead (addr : Nat)
  /-- A 32-bit write of `w` to `CMD` during whose command other bus masters write and read bytes of shared memory
  (R64; assumption log 8). -/
  | contended (w : Word) (writes : List Host.Cell) (reads : List Nat)
  /-- The reset input is asserted between commands (R230). -/
  | resetAssert
  /-- The reset input is asserted while the command of a 32-bit write of `w` to `CMD` runs (R232; assumption logs 10
  and 18). -/
  | resetDuring (w : Word)
  /-- The reset input is released (R230). -/
  | resetRelease
  deriving DecidableEq, Repr

/-- The whole machine. -/
structure State where
  /-- The cipher state, the layout, `WRAP`, `KBUF` and `KPOS`. -/
  stream : Stream
  /-- `INITD` (R27). -/
  initd : Bool
  /-- `ERR` (R29). -/
  err : ErrCode
  /-- The operand register `SRC` (R32). -/
  src : Word
  /-- The operand register `DST` (R32). -/
  dst : Word
  /-- The operand register `LEN` (R32). -/
  len : Word
  /-- The operand register `KEYADDR` (R32). -/
  keyaddr : Word
  /-- The operand register `NONCEADDR` (R32). -/
  nonceaddr : Word
  /-- The operand register `CTRINIT` (R32). -/
  ctrinit : Word
  /-- The reset input is asserted (R230). -/
  inReset : Bool
  /-- Shared memory (R50). -/
  mem : Memory
  /-- The platform's parameters (R7); no step writes them. -/
  plat : Platform
  /-- The transactions still to be performed, in arrival order (R107). -/
  bus : List Txn
  /-- What the last read transaction returned to its host (R102). -/
  rdata : Word
  /-- What other bus masters read during the last contended command (R64). -/
  peerData : List Byte
  /-- The addresses that other bus masters write while the current command runs (R64). -/
  raced : List Nat
  /-- The model's own counter of the draws of free values made so far. -/
  draws : Nat
  deriving DecidableEq, Repr

/-- Why the machine stops. -/
inductive Fault where
  /-- Raised by a host's or another bus master's access to a memory address at or above `MEM_SIZE`, which R50 does not
  give the memory. Safe: the run stops there. The engine itself never raises it, because its buffers are
  checked (R56). Assumption log 5. -/
  | noSuchMemory (addr : Nat)
  deriving DecidableEq, Repr

/-- Why the model has no transition. -/
inductive Refusal where
  /-- An instruction without a meaning; no arm of `exec` answers it. Safe. -/
  | notModelled (mnemonic : String)
  /-- Raised by `INIT`, `ENCRYPT` and `KEYSTREAM` whose buffer covers an address with side effects, and by an access of
  another master to such an address: R57 says a model must refuse it (I10). Safe (assumption log 6). -/
  | sideEffectMemory
  /-- Raised by every step on a platform that R7 and R61 exclude (I13: a model must refuse it). Safe. -/
  | platformOutsideSpec
  /-- Raised by a window transaction whose address is not in the register window: another device's, of which the spec
  says nothing (R61). Safe (assumption log 4). -/
  | notTheWindow (addr : Nat)
  deriving DecidableEq, Repr

/-- The stream after reset (R40): every word 0, `LAYOUT` = 0, `WRAP` = 0, `KBUF` 64 zero bytes, `KPOS` = 0. -/
def Stream.reset : Stream :=
  { S := Vector.replicate 16 0#32, layout := .ietf, wrap := false, kbuf := Vector.replicate 64 0#8, kpos := 0#6 }

/-- The platform of `State.reset`: `MEM_SIZE` = 0x1000 as in the spec's test vectors, the window at the lowest address
that is outside the master port's range whatever `MEM_SIZE` is, `IETF_WRAP_CARRY` left open, all memory plain
(DESIGN CHOICE, assumption log 3). -/
def resetPlatform : Platform :=
  { memSize := 0x1000, regBase := 0x100000000, ietfWrapCarry := Config.ietfWrapCarry, devices := [] }

/-- The machine right after reset (R40, R231): every piece of engine state 0, memory with nothing listed, no transaction
waiting. -/
def State.reset : State :=
  { stream := Stream.reset, initd := false, err := .ok,
    src := 0#32, dst := 0#32, len := 0#32, keyaddr := 0#32, nonceaddr := 0#32, ctrinit := 0#32,
    inReset := false, mem := [], plat := resetPlatform, bus := [], rdata := 0#32, peerData := [], raced := [],
    draws := 0 }

end Sys2Proof.Machine
end

