-- ==== Sys2Proof/Machine/Ops.lean ====
section
/-! DEFINITION. The shared operations: words and bytes (R9, R10), shared memory (R11, R51, R53), the end of a command
(R106), the raising of an error (R201) and the reset of the engine (R40). The engine takes no traps, so an error is a
result code and there is no return from one (R209, R211). -/

namespace Sys2Proof.Machine

/-! ## Words and bytes -/

/-- The 32-bit left rotation (R9, R130), for 0 < n < 32. -/
def rotl32 (x : Word) (n : Nat) : Word := (x <<< n) ||| (x >>> (32 - n))

/-- Byte `j` of a word, least significant first: `w[8j+7 : 8j]` (R10, R137). -/
def byteOf (w : Word) (j : Nat) : Byte := w.extractLsb' (8 * j) 8

/-- `LE32(b0, b1, b2, b3)` (R10). -/
def le32 (b0 b1 b2 b3 : Byte) : Word :=
  b0.zeroExtend 32 ||| (b1.zeroExtend 32 <<< 8) ||| (b2.zeroExtend 32 <<< 16) ||| (b3.zeroExtend 32 <<< 24)

/-- `SER(w)`: the four bytes of a word, least significant first (R10). -/
def ser (w : Word) : List Byte := [byteOf w 0, byteOf w 1, byteOf w 2, byteOf w 3]

/-- Word `i` of a byte sequence: `LE32` of its bytes `4i` to `4i + 3` (R52). -/
def leWord (bs : List Byte) (i : Nat) : Word :=
  le32 (bs.getD (4 * i) 0) (bs.getD (4 * i + 1) 0) (bs.getD (4 * i + 2) 0) (bs.getD (4 * i + 3) 0)

/-! ## Shared memory -/

/-- The byte at an address. -/
def Memory.read : Memory → Nat → Byte
  | [], a => Memory.unlisted a
  | (b, v) :: m, a => if a = b then v else Memory.read m a

/-- Write a byte at an address, keeping the canonical form. -/
def Memory.write : Memory → Nat → Byte → Memory
  | [], a, v => if v = Memory.unlisted a then [] else [(a, v)]
  | (b, w) :: m, a, v =>
    if a < b then (if v = Memory.unlisted a then (b, w) :: m else (a, v) :: (b, w) :: m)
    else if a = b then (if v = Memory.unlisted a then m else (a, v) :: m)
    else (b, w) :: Memory.write m a v

/-- Write bytes at `a`, `a + 1`, ... in increasing address order (R60). -/
def Memory.writeBytes : Memory → Nat → List Byte → Memory
  | m, _, [] => m
  | m, a, b :: bs => Memory.writeBytes (Memory.write m a b) (a + 1) bs

/-- Write a list of (address, byte) pairs in order. -/
def Memory.writeCells : Memory → List Host.Cell → Memory
  | m, [] => m
  | m, c :: cs => Memory.writeCells (Memory.write m c.1 c.2) cs

/-- `MemRead(a, 1)` by the engine (R53): the byte in memory, or a free byte where another bus master is writing that
address while the command runs (R64). `k` numbers the command's reads. -/
def engineRead (s : State) (k a : Nat) : Byte :=
  if a ∈ s.raced then Config.freeByte .racedRead s.draws k else s.mem.read a

/-- The engine's reads number `k`, `k + 1`, ... of the `n` bytes at `a`, `a + 1`, ... -/
def engineReads (s : State) (k a : Nat) : Nat → List Byte
  | 0 => []
  | n + 1 => engineRead s k a :: engineReads s (k + 1) (a + 1) n

/-! ## The end of a command -/

/-- The last effect of a successful command: `ERR <- OK` (R106). -/
def complete (s : State) : State := { s with err := .ok }

/-- `raise Error(code)` (R11, R201): `ERR` is the code and everything else, memory included, is as it was when the
command began. The host's `CMD` write completes normally (R209), so the machine goes on. -/
def raiseError (code : ErrCode) (s : State) : Host.Outcome State Fault Refusal := .next { s with err := code }

/-! ## Reset -/

/-- Every piece of engine state takes its reset value (R40). Shared memory, the platform and what stands outside the
engine are as before (R232). -/
def engineReset (s : State) : State :=
  { s with
    stream := Stream.reset, initd := false, err := .ok,
    src := 0#32, dst := 0#32, len := 0#32, keyaddr := 0#32, nonceaddr := 0#32, ctrinit := 0#32 }

end Sys2Proof.Machine
end

