-- ==== Sys2Proof/Machine/Permutation.lean ====
section
/-! DEFINITION. The quarter-round, the rounds, the permutation and the block function (R130 to R141). They are pure: they
read the state words and write no state. The working array `X` of R39 is the value they pass on. -/

namespace Sys2Proof.Machine

/-- `X[a] <- X[a] + X[b]`, modulo 2^32 (R131). -/
def addWord (X : Words) (a b : Fin 16) : Words := X.set a (X[a] + X[b])

/-- `X[d] <- rotl32(X[d] ^ X[a], n)` (R131). -/
def xorRotate (X : Words) (d a : Fin 16) (n : Nat) : Words := X.set d (rotl32 (X[d] ^^^ X[a]) n)

/-- `QR(X, a, b, c, d)`, line by line, each line from left to right (R131). The four indices are distinct. -/
def quarterRound (X : Words) (a b c d : Fin 16) : Words :=
  let X := xorRotate (addWord X a b) d a 16
  let X := xorRotate (addWord X c d) b c 12
  let X := xorRotate (addWord X a b) d a 8
  xorRotate (addWord X c d) b c 7

/-- The four column quarter-rounds, in this order (R132). -/
def columnRound (X : Words) : Words :=
  let X := quarterRound X 0 4 8 12
  let X := quarterRound X 1 5 9 13
  let X := quarterRound X 2 6 10 14
  quarterRound X 3 7 11 15

/-- The four diagonal quarter-rounds, in this order (R133). -/
def diagonalRound (X : Words) : Words :=
  let X := quarterRound X 0 5 10 15
  let X := quarterRound X 1 6 11 12
  let X := quarterRound X 2 7 8 13
  quarterRound X 3 4 9 14

/-- A column round followed by a diagonal round (R134). -/
def doubleRound (X : Words) : Words := diagonalRound (columnRound X)

/-- `n` double rounds. -/
def doubleRounds : Nat → Words → Words
  | 0, X => X
  | n + 1, X => doubleRounds n (doubleRound X)

/-- Ten double rounds on a copy of the state (R135). Irreducible, so that no proof runs it by accident. -/
@[irreducible] def permute (S : Words) : Words := doubleRounds 10 S

/-- The feed-forward words `Y[i] = X[i] + S[i]` with `X = Permute(S)` (R136). -/
def feedForward (S : Words) : Words := Vector.zipWith (· + ·) (permute S) S

/-- The 64 bytes of 16 words: byte `4i + j` is byte `j` of word `i` (R137). -/
def serialize (Y : Words) : KeystreamBlock := Vector.ofFn fun k : Fin 64 => byteOf (Y[k.val / 4]'(by omega)) (k.val % 4)

/-- The block function `Block(S)` (R138). -/
def block (S : Words) : KeystreamBlock := serialize (feedForward S)

end Sys2Proof.Machine
end

