-- ==== Sys2Proof/Machine/Counter.lean ====
section
/-! DEFINITION. The block counter (R150 to R155) and the keystream sequencer (R161). `carry` is the parameter
`IETF_WRAP_CARRY`. -/

namespace Sys2Proof.Machine

/-- `CounterIncrement()` (R150): word 12 by one; where it wraps to 0, `WRAP` is set (R153) and word 13 counts on in `EXT`,
and in `IETF` where the platform's parameter says so (R151, R152). -/
def counterIncrement (carry : Bool) (st : Stream) : Stream :=
  let S := st.S.set 12 (st.S[12] + 1#32)
  if S[12] = 0#32 then
    { st with
      wrap := true
      S := if st.layout = .ext ∨ carry = true then S.set 13 (S[13] + 1#32) else S }
  else { st with S := S }

/-- Generate a block into `KBUF` and advance the counter (R161, R154). -/
def refill (carry : Bool) (st : Stream) : Stream := counterIncrement carry { st with kbuf := block st.S }

/-- `NextKeystreamByte()` (R161). -/
def nextKeystreamByte (carry : Bool) (st : Stream) : Byte × Stream :=
  let st := if st.kpos = 0#6 then refill carry st else st
  (st.kbuf[st.kpos.toNat]'(st.kpos.isLt), { st with kpos := st.kpos + 1#6 })

/-- The next `n` bytes of the keystream, in order, and the stream after them (R161). -/
def takeKeystream (carry : Bool) : Nat → Stream → List Byte × Stream
  | 0, st => ([], st)
  | n + 1, st =>
    match nextKeystreamByte carry st with
    | (k, st1) =>
      match takeKeystream carry n st1 with
      | (ks, st2) => (k :: ks, st2)

end Sys2Proof.Machine
end

