-- ==== Sys2Proof/Machine/Operands.lean ====
section
/-! DEFINITION. The operand forms: the buffers of shared memory that the operand registers describe (R32, R55, R75), the
checks on them (R56, R57) and how two of them lie (R58, R59). Addresses and lengths are exact integers (R9). -/

namespace Sys2Proof.Machine

/-- A buffer of `n` bytes at `a` is valid iff `a + n <= MEM_SIZE`, with no 32-bit wrap (R56). -/
def bufferValid (p : Platform) (a n : Nat) : Bool := a + n ≤ p.memSize

/-- The ranges `[a, a + n)` and `[b, b + m)` share a byte. -/
def rangesMeet (a n b m : Nat) : Bool := max a b < min (a + n) (b + m)

/-- A buffer of `n` bytes at `a` covers an address with side effects (R57). -/
def touchesDevice (p : Platform) (a n : Nat) : Bool := p.devices.any fun r => rangesMeet a n r.base r.size

/-- `SRC != DST` and the two buffers of `n` bytes share at least one byte (R59). -/
def partialOverlap (src dst n : Nat) : Bool := src != dst && rangesMeet src n dst n

/-- The key bytes as `INIT` reads them: its reads number 0 to 31 (R120, R122). -/
def keyBytes (s : State) : List Byte := engineReads s 0 s.keyaddr.toNat 32

/-- The nonce bytes as `INIT` reads them, after the key bytes (R120). -/
def nonceBytes (s : State) (nlen : Nat) : List Byte := engineReads s 32 s.nonceaddr.toNat nlen

/-- The source bytes as `ENCRYPT` reads them, all before any destination byte is written (R60, R162). -/
def sourceBytes (s : State) : List Byte := engineReads s 0 s.src.toNat s.len.toNat

/-- The destination buffer a command writes when it succeeds: its address and its length (R51). -/
def destBuffer (i : Instr) (s : State) : Option (Nat × Nat) :=
  match i with
  | .nop => none
  | .init _ _ => none
  | .encrypt => some (s.dst.toNat, s.len.toNat)
  | .keystream => some (s.dst.toNat, s.len.toNat)

/-- The address lies in the buffer, where there is one. -/
def inBuffer (buf : Option (Nat × Nat)) (a : Nat) : Bool :=
  match buf with
  | none => false
  | some (b, n) => b ≤ a && a < b + n

end Sys2Proof.Machine
end

