-- ==== Sys2Proof/Machine/Apply.lean ====
section
/-! DEFINITION. `NOP`, `ENCRYPT` and `KEYSTREAM` (R160 to R171). -/

namespace Sys2Proof.Machine

/-- `DoNop()` (R160). -/
def execNop (s : State) : Host.Outcome State Fault Refusal := .next (complete s)

/-- The next `n` keystream bytes of a state's stream, and the stream after them. -/
def stateKeystream (s : State) (n : Nat) : List Byte × Stream := takeKeystream s.plat.ietfWrapCarry n s.stream

/-- What `ENCRYPT` writes: each source byte xor its keystream byte (R162); on a partial overlap a free byte for each
(R59). -/
def encryptBytes (s : State) : List Byte :=
  if partialOverlap s.src.toNat s.dst.toNat s.len.toNat then Config.freeBytes .overlap s.draws s.len.toNat
  else List.zipWith (· ^^^ ·) (sourceBytes s) (stateKeystream s s.len.toNat).1

/-- The effect of an `ENCRYPT` whose checks have passed (R162, R59). -/
def encryptEffect (s : State) : State :=
  { s with
    mem := s.mem.writeBytes s.dst.toNat (encryptBytes s)
    stream := (stateKeystream s s.len.toNat).2
    draws := if partialOverlap s.src.toNat s.dst.toNat s.len.toNat then s.draws + 1 else s.draws }

/-- The effect of a `KEYSTREAM` whose checks have passed (R163). -/
def keystreamEffect (s : State) : State :=
  { s with
    mem := s.mem.writeBytes s.dst.toNat (stateKeystream s s.len.toNat).1
    stream := (stateKeystream s s.len.toNat).2 }

/-- `DoEncrypt()` (R162). A buffer over memory with side effects is refused (R57). -/
def execEncrypt (s : State) : Host.Outcome State Fault Refusal :=
  if s.initd = false then raiseError .notInitialized s
  else if s.len = 0#32 then .next (complete s)
  else if !bufferValid s.plat s.src.toNat s.len.toNat || !bufferValid s.plat s.dst.toNat s.len.toNat then
    raiseError .bufferTooSmall s
  else if touchesDevice s.plat s.src.toNat s.len.toNat || touchesDevice s.plat s.dst.toNat s.len.toNat then
    .refused .sideEffectMemory
  else .next (complete (encryptEffect s))

/-- `DoKeystream()` (R163). `SRC` is neither read nor checked. A buffer over memory with side effects is refused (R57). -/
def execKeystream (s : State) : Host.Outcome State Fault Refusal :=
  if s.initd = false then raiseError .notInitialized s
  else if s.len = 0#32 then .next (complete s)
  else if !bufferValid s.plat s.dst.toNat s.len.toNat then raiseError .bufferTooSmall s
  else if touchesDevice s.plat s.dst.toNat s.len.toNat then .refused .sideEffectMemory
  else .next (complete (keystreamEffect s))

end Sys2Proof.Machine
end

