-- ==== Sys2Proof/Machine/Init.lean ====
section
/-! DEFINITION. `INIT` (R120 to R127). -/

namespace Sys2Proof.Machine

/-- The layout a nonce length selects: 12 is `IETF`, 8 is `EXT` (R123, R124; no other length reaches this, R204). -/
def layoutOf (nlen : Nat) : Layout := if nlen = 12 then .ietf else .ext

/-- The state words of a new stream: the constants (R121), the key (R122), the counter, and the nonce as the layout places it
(R123, R124). -/
def initWords (layout : Layout) (key nonce : List Byte) (ctr : Word) : Words :=
  match layout with
  | .ietf =>
    #v[0x61707865#32, 0x3320646e#32, 0x79622d32#32, 0x6b206574#32,
      leWord key 0, leWord key 1, leWord key 2, leWord key 3, leWord key 4, leWord key 5, leWord key 6, leWord key 7,
      ctr, leWord nonce 0, leWord nonce 1, leWord nonce 2]
  | .ext =>
    #v[0x61707865#32, 0x3320646e#32, 0x79622d32#32, 0x6b206574#32,
      leWord key 0, leWord key 1, leWord key 2, leWord key 3, leWord key 4, leWord key 5, leWord key 6, leWord key 7,
      ctr, 0#32, leWord nonce 0, leWord nonce 1]

/-- The stream a successful `INIT` begins (R125). -/
def initStream (nlen : Nat) (s : State) : Stream :=
  { S := initWords (layoutOf nlen) (keyBytes s) (nonceBytes s nlen) s.ctrinit
    layout := layoutOf nlen
    wrap := false
    kbuf := Vector.replicate 64 0#8
    kpos := 0#6 }

/-- `DoInit(klen, nlen)` (R120). The key and nonce buffers are checked together (R207); a buffer over memory with side effects
is refused (R57). -/
def execInit (klen nlen : Nat) (s : State) : Host.Outcome State Fault Refusal :=
  if klen ≠ 32 then raiseError .invalidKeyLength s
  else if nlen ≠ 8 ∧ nlen ≠ 12 then raiseError .invalidNonceLength s
  else if !bufferValid s.plat s.keyaddr.toNat 32 || !bufferValid s.plat s.nonceaddr.toNat nlen then
    raiseError .bufferTooSmall s
  else if touchesDevice s.plat s.keyaddr.toNat 32 || touchesDevice s.plat s.nonceaddr.toNat nlen then
    .refused .sideEffectMemory
  else .next (complete { s with stream := initStream nlen s, initd := true })

end Sys2Proof.Machine
end

