-- ==== Sys2Proof/Machine/Dispatch.lean ====
section
/-! DEFINITION. What each command does: one arm per constructor of Instr (R105). -/

namespace Sys2Proof.Machine

def exec (i : Instr) (s : State) : Host.Outcome State Fault Refusal :=
  match i with
  | .nop => Sys2Proof.Machine.execNop s
  | .init klen nlen => Sys2Proof.Machine.execInit klen nlen s
  | .encrypt => Sys2Proof.Machine.execEncrypt s
  | .keystream => Sys2Proof.Machine.execKeystream s

end Sys2Proof.Machine
end

