-- ==== Sys2Proof/Machine/Flags.lean ====
section
/-! DEFINITION. The status bits (R35, R42, R200): the only flags the engine has. -/

namespace Sys2Proof.Machine

/-- The number of a result code (R200). -/
def errNumber : ErrCode → BitVec 4
  | .ok => 0
  | .invalidKeyLength => 1
  | .invalidNonceLength => 2
  | .bufferTooSmall => 3
  | .notInitialized => 4
  | .illegalCommand => 5

/-- The `LAYOUT` bit (R26). -/
def layoutBit : Layout → Bool
  | .ietf => false
  | .ext => true

/-- A flag as a word. -/
def flagWord (b : Bool) : Word := (BitVec.ofBool b).zeroExtend 32

/-- `STATUS = zext_32(ERR) << 4 | WRAP << 2 | LAYOUT << 1 | INITD` (R35). -/
def statusWord (s : State) : Word :=
  ((errNumber s.err).zeroExtend 32 <<< 4) ||| (flagWord s.stream.wrap <<< 2) |||
    (flagWord (layoutBit s.stream.layout) <<< 1) ||| flagWord s.initd

/-- `KPOS` as the host reads it: bits 31:6 read 0 (R36). -/
def kposWord (s : State) : Word := s.stream.kpos.zeroExtend 32

end Sys2Proof.Machine
end

