-- ==== Sys2Proof/Machine/Bus.lean ====
section
/-! DEFINITION. What reaches the engine from outside: the register window and command issue (R100 to R108), the hosts' accesses
to shared memory (R50, R63), other bus masters during a command (R64, R237) and the reset input (R230, R232). -/

namespace Sys2Proof.Machine

/-! ## The register window -/

/-- The offset of a register in the window (R33). -/
def regOffset : Reg → Nat
  | .cmd => 0x00
  | .status => 0x04
  | .kpos => 0x08
  | .src => 0x10
  | .dst => 0x14
  | .len => 0x18
  | .keyaddr => 0x1C
  | .nonceaddr => 0x20
  | .ctrinit => 0x24
  | .s i => 0x40 + 4 * i.val

/-- The register at a window offset; none at a reserved offset (R33, R38) and at an offset that is no multiple of 4. -/
def regAt (off : Nat) : Option Reg :=
  if off = 0x00 then some .cmd
  else if off = 0x04 then some .status
  else if off = 0x08 then some .kpos
  else if off = 0x10 then some .src
  else if off = 0x14 then some .dst
  else if off = 0x18 then some .len
  else if off = 0x1C then some .keyaddr
  else if off = 0x20 then some .nonceaddr
  else if off = 0x24 then some .ctrinit
  else if h : 0x40 ≤ off ∧ off < 0x80 ∧ off % 4 = 0 then some (.s ⟨(off - 0x40) / 4, by omega⟩)
  else none

/-- The window offset of a host address; none where it lies outside the 256 bytes at `REG_BASE` (R33, R50). -/
def windowOffset (p : Platform) (addr : Nat) : Option Nat :=
  if p.regBase ≤ addr ∧ addr < p.regBase + 0x100 then some (addr - p.regBase) else none

/-- What a read of a register returns (R102). -/
def readReg (r : Reg) (s : State) : Word :=
  match r with
  | .cmd => 0x00000000#32
  | .status => statusWord s
  | .kpos => kposWord s
  | .src => s.src
  | .dst => s.dst
  | .len => s.len
  | .keyaddr => s.keyaddr
  | .nonceaddr => s.nonceaddr
  | .ctrinit => s.ctrinit
  | .s i => s.stream.S[i]

/-- What a read at a window offset returns: 0 at a reserved offset (R38) and for an access that is not 32 bits wide or not
aligned (R54). -/
def readOffset (off width : Nat) (s : State) : Word :=
  if width = 4 ∧ off % 4 = 0 then
    match regAt off with
    | some r => readReg r s
    | none => 0x00000000#32
  else 0x00000000#32

/-- `Execute(w)` (R105): decode, and run exactly one command rule; an illegal word raises `ILLEGAL_COMMAND` (R202). It
returns before the `CMD` write is acknowledged, so it is the whole of `IssueCommand` (R104). -/
def issueCommand (w : Word) (s : State) : Host.Outcome State Fault Refusal :=
  match decode w with
  | .ok i => exec i s
  | .error _ => raiseError .illegalCommand s

/-- What a write to a register does (R100). -/
def writeReg (r : Reg) (v : Word) (s : State) : Host.Outcome State Fault Refusal :=
  match r with
  | .cmd => issueCommand v s
  | .status => .next s
  | .kpos => .next s
  | .src => .next { s with src := v }
  | .dst => .next { s with dst := v }
  | .len => .next { s with len := v }
  | .keyaddr => .next { s with keyaddr := v }
  | .nonceaddr => .next { s with nonceaddr := v }
  | .ctrinit => .next { s with ctrinit := v }
  | .s _ => .next s

/-- What a write at a window offset does: nothing at a reserved offset (R38), and nothing if it is not 32 bits wide or not
aligned (R54). -/
def writeOffset (off width : Nat) (v : Word) (s : State) : Host.Outcome State Fault Refusal :=
  if width = 4 ∧ off % 4 = 0 then
    match regAt off with
    | some r => writeReg r v s
    | none => .next s
  else .next s

/-- A host's write to the window (R100). While the reset is asserted the window does not respond (R230): nothing is
written. -/
def hostWrite (addr width : Nat) (v : Word) (s : State) : Host.Outcome State Fault Refusal :=
  match windowOffset s.plat addr with
  | none => .refused (.notTheWindow addr)
  | some off => if s.inReset then .next s else writeOffset off width v s

/-- A free word (what a host reads while the window does not respond). -/
def freeWord (use : FreeUse) (event : Nat) : Word := leWord (Config.freeBytes use event 4) 0

/-- A host's read of the window (R102). While the reset is asserted the window does not respond (R230), and what the host gets
is free (assumption log 9). -/
def hostRead (addr width : Nat) (s : State) : Host.Outcome State Fault Refusal :=
  match windowOffset s.plat addr with
  | none => .refused (.notTheWindow addr)
  | some off =>
    if s.inReset then .next { s with rdata := freeWord .resetRead s.draws, draws := s.draws + 1 }
    else .next { s with rdata := readOffset off width s }

/-! ## Shared memory -/

/-- A byte of plain shared memory: it exists (R50) and has no side effects (R57). -/
def plainMemory (p : Platform) (a : Nat) : Bool := bufferValid p a 1 && !touchesDevice p a 1

/-- What an access by a host or another master to a byte that is not plain memory answers. -/
def badMemory (p : Platform) (a : Nat) : Host.Outcome State Fault Refusal :=
  if bufferValid p a 1 then .refused .sideEffectMemory else .fault (.noSuchMemory a)

/-- A host writes a byte of shared memory (R63). -/
def hostMemWrite (a : Nat) (v : Byte) (s : State) : Host.Outcome State Fault Refusal :=
  if plainMemory s.plat a then .next { s with mem := s.mem.write a v } else badMemory s.plat a

/-- A host reads a byte of shared memory (R63). -/
def hostMemRead (a : Nat) (s : State) : Host.Outcome State Fault Refusal :=
  if plainMemory s.plat a then .next { s with rdata := (s.mem.read a).zeroExtend 32 } else badMemory s.plat a

/-! ## Other bus masters during a command -/

/-- The buffer a `CMD` write of `w` stored to, seen after its command: none where the command failed, since a failed command
writes no memory (R201). -/
def storedBuffer (w : Word) (after : State) : Option (Nat × Nat) :=
  match after.err with
  | .ok =>
    match decode w with
    | .ok i => destBuffer i after
    | .error _ => none
  | .invalidKeyLength => none
  | .invalidNonceLength => none
  | .bufferTooSmall => none
  | .notInitialized => none
  | .illegalCommand => none

/-- The other masters' writes as they stand in memory after the command: a byte that the engine also wrote is free (R237). -/
def landedWrites (stored : Option (Nat × Nat)) (event : Nat) : Nat → List Host.Cell → List Host.Cell
  | _, [] => []
  | k, c :: cs =>
    (c.1, if inBuffer stored c.1 then Config.freeByte .racedWrite event k else c.2) ::
      landedWrites stored event (k + 1) cs

/-- What another master reads during a command: a byte of the destination buffer is its old or its new value (R64), a byte
that is also being written by another master is free (R237), any other byte is as it stands. -/
def peerRead (stored : Option (Nat × Nat)) (written : List Nat) (event k a : Nat) (old new : Memory) : Byte :=
  if a ∈ written then Config.freeByte .peerRead event k
  else if inBuffer stored a then
    (if (Config.freeByte .peerChoice event k).getLsbD 0 then new.read a else old.read a)
  else old.read a

/-- What other masters read during a command, in order. -/
def peerReads (stored : Option (Nat × Nat)) (written : List Nat) (event : Nat) (old new : Memory) :
    Nat → List Nat → List Byte
  | _, [] => []
  | k, a :: as =>
    peerRead stored written event k a old new :: peerReads stored written event old new (k + 1) as

/-- The memory and what the other masters read, once a contended command is over: `s` is the state before it, `t` after it,
`stored` the buffer it stored to. -/
def settleRace (stored : Option (Nat × Nat)) (writes : List Host.Cell) (reads : List Nat) (s t : State) : State :=
  { t with
    mem := t.mem.writeCells (landedWrites stored t.draws 0 writes)
    peerData := peerReads stored (writes.map (·.1)) t.draws s.mem t.mem 0 reads
    raced := []
    draws := t.draws + 1 }

/-- The first address of a list that is not plain memory. -/
def firstBad (p : Platform) (as : List Nat) : Option Nat := as.find? fun a => !plainMemory p a

/-- A command during which other bus masters access shared memory (R64, R237): what the engine reads at an address they write
is free, its own state update is as ever, and then their writes stand in memory (assumption log 8). While the reset is asserted no
command runs (R230). -/
def contendedCommand (w : Word) (writes : List Host.Cell) (reads : List Nat) (s : State) :
    Host.Outcome State Fault Refusal :=
  match firstBad s.plat (writes.map (·.1) ++ reads) with
  | some a => badMemory s.plat a
  | none =>
    if s.inReset then .next (settleRace none writes reads s s)
    else
      match issueCommand w { s with raced := writes.map (·.1) } with
      | .next t => .next (settleRace (storedBuffer w t) writes reads s t)
      | .fault f => .fault f
      | .refused r => .refused r

/-! ## The reset input -/

/-- The destination buffer of the command a word stands for, as far as it lies in memory: its address and length. -/
def interruptedBuffer (w : Word) (s : State) : Nat × Nat :=
  match decode w with
  | .ok i =>
    match destBuffer i s with
    | some (a, n) => (a, min n (s.plat.memSize - a))
    | none => (0, 0)
  | .error _ => (0, 0)

/-- The reset is asserted while the command of a `CMD` write runs (R232): every byte of its destination buffer is free and the
engine is freshly reset. While the reset is asserted already no command runs. R57 refuses a command whose buffers cover
memory with side effects and R232 goes on with any; the spec does not say which holds where both apply. DESIGN CHOICE
(assumption log 10): R57 does, so that the interruption of a command the model refuses is refused alike, whichever buffer it
is; and a command that would fail a check is refused where its destination buffer covers such memory, as the free bytes would
stand there. The spec does not say how other masters' accesses during the command (R64) combine with the interruption. DESIGN
CHOICE (assumption log 18): this transaction carries none, so each stands wholly before or wholly after it. -/
def resetDuringCommand (w : Word) (s : State) : Host.Outcome State Fault Refusal :=
  if s.inReset then .next s
  else
    match issueCommand w s with
    | .fault f => .fault f
    | .refused r => .refused r
    | .next _ =>
      if touchesDevice s.plat (interruptedBuffer w s).1 (interruptedBuffer w s).2 then .refused .sideEffectMemory
      else
        .next
          { engineReset s with
            inReset := true
            mem := s.mem.writeBytes (interruptedBuffer w s).1
              (Config.freeBytes .resetDuring s.draws (interruptedBuffer w s).2)
            draws := s.draws + 1 }

/-! ## One transaction -/

/-- What one transaction does to a machine from whose bus it has been taken. -/
def perform (t : Txn) (s : State) : Host.Outcome State Fault Refusal :=
  match t with
  | .write addr width v => hostWrite addr width v s
  | .read addr width => hostRead addr width s
  | .memWrite a v => hostMemWrite a v s
  | .memRead a => hostMemRead a s
  | .contended w writes reads => contendedCommand w writes reads s
  | .resetAssert => .next { engineReset s with inReset := true }
  | .resetDuring w => resetDuringCommand w s
  | .resetRelease => .next { engineReset s with inReset := false }

/-- The transaction of a host that issues a command word (R104): a 32-bit write to `CMD`. -/
def commandTxn (p : Platform) (w : Word) : Txn := .write (p.regBase + regOffset .cmd) 4 w

end Sys2Proof.Machine
end

