-- ==== Sys2Proof/Machine/Step.lean ====
section
/-! DEFINITION. One step of the machine: the next transaction of the bus, performed to its end (R107, R246; assumption log 12). -/

namespace Sys2Proof.Machine

/-- One step. With no transaction waiting the engine is idle and its state is constant (R108). A platform outside the spec is
refused (R61). -/
def step (s : State) : Host.Outcome State Fault Refusal :=
  match s.bus with
  | [] => .next s
  | t :: rest => if s.plat.wf then perform t { s with bus := rest } else .refused .platformOutsideSpec

/-- The machine whose next step runs a given command word: a host's write of it to `CMD` stands first on the bus, and the
reset is not asserted (assumption log 2: the engine fetches nothing, commands come over the bus). -/
def State.withFetchWord (s : State) (nbits w : Nat) : State :=
  { s with inReset := false, bus := commandTxn s.plat (tableWord nbits w) :: s.bus }

end Sys2Proof.Machine
end

