-- ==== Sys2Proof/Machine/Assembler.lean ====
section
/-! DEFINITION. The assembler's command lines and pseudo-instructions (R77, R78) and the host transaction lines (R79). They
stand beside the machine: no step reads them (assumption log 14). -/

namespace Sys2Proof.Machine

/-- A command line (R77) or a pseudo-instruction (R78). -/
inductive AsmLine where
  | nop
  | init (klen nlen : Nat)
  | encrypt
  | keystream
  | initIetf
  | initExt
  | decrypt
  | clrerr
  deriving DecidableEq, Repr

/-- The command a line stands for: the pseudo-instructions expanded (R78); none for an `INIT` whose operands do not lie
in 0 to 255 (R77). -/
def asmInstr (l : AsmLine) : Option Instr :=
  match l with
  | .nop => some .nop
  | .init klen nlen => if (Instr.init klen nlen).wf then some (.init klen nlen) else none
  | .encrypt => some .encrypt
  | .keystream => some .keystream
  | .initIetf => some (.init 32 12)
  | .initExt => some (.init 32 8)
  | .decrypt => some .encrypt
  | .clrerr => some .nop

/-- The word a line assembles to (R77, R78). -/
def asmWord (l : AsmLine) : Option Word := (asmInstr l).map encode

/-! ## The text of a command line -/

/-- Cut a line at its blanks; a comma is a token of its own. `cur` is the token being read, reversed. -/
def asmTokens (cur : List Char) : List Char → List (List Char)
  | [] => if cur.isEmpty then [] else [cur.reverse]
  | c :: cs =>
    if c = ' ' then (if cur.isEmpty then asmTokens [] cs else cur.reverse :: asmTokens [] cs)
    else if c = ',' then
      (if cur.isEmpty then [','] :: asmTokens [] cs else cur.reverse :: [','] :: asmTokens [] cs)
    else asmTokens (c :: cur) cs

/-- The value of a digit in a base (10 or 16). -/
def digitValue (base : Nat) (c : Char) : Option Nat :=
  let v :=
    if 48 ≤ c.toNat ∧ c.toNat ≤ 57 then c.toNat - 48
    else if 65 ≤ c.toNat ∧ c.toNat ≤ 70 then c.toNat - 55
    else if 97 ≤ c.toNat ∧ c.toNat ≤ 102 then c.toNat - 87
    else base
  if v < base then some v else none

/-- Read the digits of a number on to the value read so far. -/
def readDigits (base : Nat) : Nat → List Char → Option Nat
  | v, [] => some v
  | v, c :: cs =>
    match digitValue base c with
    | some d => readDigits base (v * base + d) cs
    | none => none

/-- A number in decimal or `0x` hexadecimal (R77). -/
def readNumber (cs : List Char) : Option Nat :=
  match cs with
  | [] => none
  | ['0', 'x'] => none
  | '0' :: 'x' :: ds => readDigits 16 0 ds
  | c :: ds => readDigits 10 0 (c :: ds)

/-- The line of a list of tokens. -/
def asmOfTokens (ts : List (List Char)) : Option AsmLine :=
  match ts with
  | [['N', 'O', 'P']] => some .nop
  | [['I', 'N', 'I', 'T'], k, [','], n] =>
    match readNumber k, readNumber n with
    | some klen, some nlen => some (.init klen nlen)
    | _, _ => none
  | [['E', 'N', 'C', 'R', 'Y', 'P', 'T']] => some .encrypt
  | [['K', 'E', 'Y', 'S', 'T', 'R', 'E', 'A', 'M']] => some .keystream
  | [['I', 'N', 'I', 'T', '.', 'I', 'E', 'T', 'F']] => some .initIetf
  | [['I', 'N', 'I', 'T', '.', 'E', 'X', 'T']] => some .initExt
  | [['D', 'E', 'C', 'R', 'Y', 'P', 'T']] => some .decrypt
  | [['C', 'L', 'R', 'E', 'R', 'R']] => some .clrerr
  | _ => none

/-- The word the text of a command line assembles to (R77, R78); none for a text that is no command line. -/
def assemble (text : List Char) : Option Word := (asmOfTokens (asmTokens [] text)).bind asmWord

/-! ## Host transaction lines -/

/-- A host transaction line (R79). -/
inductive HostLine where
  /-- `WR reg, v`. -/
  | wr (r : Reg) (v : Word)
  /-- `RD reg`. -/
  | rd (r : Reg)
  /-- `MWR a, b0 b1 ...`. -/
  | mwr (a : Nat) (bs : List Byte)
  /-- `MRD a, n`. -/
  | mrd (a n : Nat)
  /-- A command mnemonic: `WR CMD, <its word>`. -/
  | cmd (l : AsmLine)
  deriving DecidableEq, Repr

/-- One byte write for each byte, at rising addresses. -/
def memWriteTxns (a : Nat) : List Byte → List Txn
  | [] => []
  | b :: bs => .memWrite a b :: memWriteTxns (a + 1) bs

/-- The bus transactions of a host line (R79); none for a command line that does not assemble. -/
def hostLineTxns (p : Platform) (l : HostLine) : Option (List Txn) :=
  match l with
  | .wr r v => some [.write (p.regBase + regOffset r) 4 v]
  | .rd r => some [.read (p.regBase + regOffset r) 4]
  | .mwr a bs => some (memWriteTxns a bs)
  | .mrd a n => some ((List.range n).map fun j => .memRead (a + j))
  | .cmd l => (asmWord l).map fun w => [commandTxn p w]

end Sys2Proof.Machine
end

