-- ==== Sys2Proof/Safety.lean ====
section
/-! DEFINITION. The terms in which statements speak about runs: the invariant, the block counter, the words of the spec's
derived properties (R41, R151, R155), and which transactions begin a stream or move bytes. -/

namespace Sys2Proof.Machine

/-! ## Safe outcomes -/

/-- The machine goes on: neither a fault nor a refusal. -/
def goesOn (o : Host.Outcome State Fault Refusal) : Prop := ∃ t, o = .next t

/-- The state an outcome goes on to, if it does. -/
def nextState (o : Host.Outcome State Fault Refusal) : Option State :=
  match o with
  | .next t => some t
  | .fault _ => none
  | .refused _ => none

/-! ## The block counter -/

/-- The 64-bit block counter `{S[13], S[12]}` of the `EXT` layout, as a number (R25, R151). -/
def counter64 (S : Words) : Nat := S[13].toNat * 2 ^ 32 + S[12].toNat

/-- `n` block generations' worth of counter increments (R150, R154). -/
def advance (carry : Bool) : Nat → Stream → Stream
  | 0, st => st
  | n + 1, st => advance carry n (counterIncrement carry st)

/-- How many blocks `n` keystream bytes take from position `p` (R162): with `A` = 0 if `p` = 0 and `A` = 64 - `p`
otherwise, `max(0, ceil((n - A) / 64))`. -/
def blocksFor (p n : Nat) : Nat := (n - (if p = 0 then 0 else 64 - p) + 63) / 64

/-- The state words as they were before the last counter increment (R41: the block with counter value "block counter - 1"). -/
def previousWords (carry : Bool) (st : Stream) : Words :=
  let S := st.S.set 12 (st.S[12] - 1#32)
  if st.S[12] = 0#32 ∧ (st.layout = .ext ∨ carry = true) then S.set 13 (S[13] - 1#32) else S

/-! ## The invariant -/

/-- Words 0 to 3 hold the constant words (R21, R121). -/
def constantsHold (S : Words) : Prop :=
  S[0] = 0x61707865#32 ∧ S[1] = 0x3320646e#32 ∧ S[2] = 0x79622d32#32 ∧ S[3] = 0x6b206574#32

/-- Memory has its canonical form and no byte at or above `MEM_SIZE` (R50). -/
def State.MemoryOk (s : State) : Prop := s.mem.wf ∧ ∀ c ∈ s.mem, c.1 < s.plat.memSize

/-- The stream is the reset stream while no stream is initialised (R37, R40); once one is, the constants stand and a buffered
block is the one generated with the counter value before the present one (R41). -/
def State.StreamOk (s : State) : Prop :=
  (s.initd = false → s.stream = Stream.reset) ∧
  (s.initd = true →
    constantsHold s.stream.S ∧
    (s.stream.kpos ≠ 0#6 → s.stream.kbuf = block (previousWords s.plat.ietfWrapCarry s.stream)))

/-- The invariant of the machine between transactions. -/
def State.Inv (s : State) : Prop := s.MemoryOk ∧ s.StreamOk ∧ s.raced = []

/-! ## What a transaction is -/

/-- The command word a transaction gives the engine in a state: a 32-bit write to `CMD` while the window responds. -/
def commandOf (x : Txn) (s : State) : Option Word :=
  match x with
  | .write addr width w =>
    if s.inReset = false ∧ width = 4 ∧ windowOffset s.plat addr = some 0 then some w else none
  | .read _ _ => none
  | .memWrite _ _ => none
  | .memRead _ => none
  | .contended w _ _ => if s.inReset = false then some w else none
  | .resetAssert => none
  | .resetDuring _ => none
  | .resetRelease => none

/-- The transaction puts the engine into its reset state. -/
def resetsEngine (x : Txn) (s : State) : Bool :=
  match x with
  | .write _ _ _ => false
  | .read _ _ => false
  | .memWrite _ _ => false
  | .memRead _ => false
  | .contended _ _ _ => false
  | .resetAssert => true
  | .resetDuring _ => !s.inReset
  | .resetRelease => true

/-- The transaction, from `s` to `t`, is a successful `INIT`. -/
def initialises (x : Txn) (s t : State) : Prop :=
  ∃ w klen nlen, commandOf x s = some w ∧ decode w = .ok (.init klen nlen) ∧ t.err = .ok

/-- An operand register's value after a transaction that does not reset the engine (R100, R101): the written value, where the
transaction is a 32-bit write at the register's window offset while the window responds, and its old value otherwise. -/
def operandAfter (x : Txn) (s : State) (off : Nat) (old : Word) : Word :=
  match x with
  | .write addr width v => if addr = s.plat.regBase + off ∧ width = 4 ∧ s.inReset = false then v else old
  | .read _ _ => old
  | .memWrite _ _ => old
  | .memRead _ => old
  | .contended _ _ _ => old
  | .resetAssert => old
  | .resetDuring _ => old
  | .resetRelease => old

/-- The buffers a command word's command accesses when it succeeds: address and length (R51). -/
def commandBuffers (w : Word) (s : State) : List (Nat × Nat) :=
  match decode w with
  | .error _ => []
  | .ok .nop => []
  | .ok (.init _ nlen) => [(s.keyaddr.toNat, 32), (s.nonceaddr.toNat, nlen)]
  | .ok .encrypt => [(s.src.toNat, s.len.toNat), (s.dst.toNat, s.len.toNat)]
  | .ok .keystream => [(s.dst.toNat, s.len.toNat)]

/-- The number of keystream bytes a transaction moved, from `s` to `t`: `LEN` for a successful `ENCRYPT` or `KEYSTREAM`. -/
def bytesMoved (x : Txn) (s t : State) : Nat :=
  match commandOf x s with
  | none => 0
  | some w =>
    match decode w with
    | .error _ => 0
    | .ok .nop => 0
    | .ok (.init _ _) => 0
    | .ok .encrypt => if t.err = .ok then s.len.toNat else 0
    | .ok .keystream => if t.err = .ok then s.len.toNat else 0

/-- `t` is reached from `s` by steps that neither reset the engine nor begin a stream, and that moved `n` keystream bytes in
all. -/
inductive Streamed (s : State) : Nat → State → Prop where
  | start : Streamed s 0 s
  | idle {n : Nat} {t u : State} (before : Streamed s n t) (empty : t.bus = []) (next : step t = .next u) :
      Streamed s n u
  | more {n : Nat} {t u : State} {x : Txn} {rest : List Txn} (before : Streamed s n t) (first : t.bus = x :: rest)
      (next : step t = .next u) (keeps : resetsEngine x t = false) (same : ¬ initialises x t u) :
      Streamed s (n + bytesMoved x t u) u

/-- The result code of a command word, by the order of the checks in R207. -/
def resultCode (w : Word) (s : State) : ErrCode :=
  match decode w with
  | .error _ => .illegalCommand
  | .ok .nop => .ok
  | .ok (.init klen nlen) =>
    if klen ≠ 32 then .invalidKeyLength
    else if nlen ≠ 8 ∧ nlen ≠ 12 then .invalidNonceLength
    else if s.plat.memSize < s.keyaddr.toNat + 32 ∨ s.plat.memSize < s.nonceaddr.toNat + nlen then .bufferTooSmall
    else .ok
  | .ok .encrypt =>
    if s.initd = false then .notInitialized
    else if s.len.toNat = 0 then .ok
    else if s.plat.memSize < s.src.toNat + s.len.toNat ∨ s.plat.memSize < s.dst.toNat + s.len.toNat then .bufferTooSmall
    else .ok
  | .ok .keystream =>
    if s.initd = false then .notInitialized
    else if s.len.toNat = 0 then .ok
    else if s.plat.memSize < s.dst.toNat + s.len.toNat then .bufferTooSmall
    else .ok

/-! ## Conditions on a state -/

/-- The platform is one the spec allows, and the reset is not asserted: the window responds. -/
def State.Ready (s : State) : Prop := s.plat.wf = true ∧ s.inReset = false

/-- No byte of `[a, a + n)` has side effects (R57). -/
def plainBuffer (p : Platform) (a n : Nat) : Prop :=
  ∀ x, a ≤ x → x < a + n → ∀ r ∈ p.devices, ¬ (r.base ≤ x ∧ x < r.base + r.size)

/-- The two buffers of `n` bytes are the same or share no byte (R58). -/
def sameOrDisjoint (src dst n : Nat) : Prop := src = dst ∨ src + n ≤ dst ∨ dst + n ≤ src

/-- No other bus master writes a byte of `[a, a + n)` while the current command runs (R64). -/
def unraced (s : State) (a n : Nat) : Prop := ∀ x, a ≤ x → x < a + n → x ∉ s.raced

/-- The `LE32` of the four bytes of memory at `a` (R52). -/
def memWord (s : State) (a : Nat) : Word :=
  le32 (s.mem.read a) (s.mem.read (a + 1)) (s.mem.read (a + 2)) (s.mem.read (a + 3))

/-! ## The window, one access at a time -/

/-- The machine with one transaction before it, and nothing else waiting. -/
def withTxn (s : State) (x : Txn) : State := { s with bus := [x] }

/-- A 32-bit read at a window offset returns `v` and changes nothing. -/
def readsAs (s : State) (off : Nat) (v : Word) : Prop :=
  step (withTxn s (.read (s.plat.regBase + off) 4)) = .next { s with bus := [], rdata := v }

/-- A 32-bit write of `v` at a window offset leads to `t`. -/
def writesTo (s : State) (off : Nat) (v : Word) (t : State) : Prop :=
  step (withTxn s (.write (s.plat.regBase + off) 4 v)) = .next { t with bus := [] }

/-- The reserved offsets of the window (R38). -/
def reservedOffset (off : Nat) : Prop :=
  off % 4 = 0 ∧ (off = 0x0C ∨ (0x28 ≤ off ∧ off ≤ 0x3C) ∨ (0x80 ≤ off ∧ off ≤ 0xFC))

end Sys2Proof.Machine
end

