-- ==== Sys2Proof/Certificates/Slice0/Obligations.lean ====
section
/-! DEFINITION. The statements for the provers. -/

open Sys2Proof Sys2Proof.Machine

/-! ## Encoding -/

/-- R76, R77: the encoder's word of a well-formed command decodes to that command, with every operand value. -/
def Obligations.DecodeOfEncodeIsTheCommand : Prop :=
  ∀ i : Instr, i.wf = true → decode (encode i) = .ok i

/-- R73, R77: a word that decodes has well-formed operands and is the encoder's word. -/
def Obligations.EncodeOfDecodeIsTheWord : Prop :=
  ∀ (w : Word) (i : Instr), decode w = .ok i → i.wf = true ∧ encode i = w

/-- R73: the legal words are those of the four match and mask rows, and the operands are the fields of R71. -/
def Obligations.LegalWordsAreTheTableRows : Prop :=
  ∀ w : Word,
    (decode w = .ok .nop ↔ w &&& 0xFFFFFFFF#32 = 0x00000000#32) ∧
    ((∃ klen nlen, decode w = .ok (.init klen nlen)) ↔ w &&& 0xFF0000FF#32 = 0x00000001#32) ∧
    (decode w = .ok .encrypt ↔ w &&& 0xFFFFFFFF#32 = 0x00000002#32) ∧
    (decode w = .ok .keystream ↔ w &&& 0xFFFFFFFF#32 = 0x00000003#32) ∧
    (∀ klen nlen, decode w = .ok (.init klen nlen) → klen = w.toNat / 2 ^ 16 % 256 ∧ nlen = w.toNat / 2 ^ 8 % 256)

/-- Words of 95_test_vectors.md V-DEC, written out, and what they decode to. -/
def Obligations.SampleWordsDecode : Prop :=
  decode 0x00000000#32 = .ok .nop ∧
  decode 0x00200C01#32 = .ok (.init 32 12) ∧
  decode 0x00200801#32 = .ok (.init 32 8) ∧
  decode 0x001F0C01#32 = .ok (.init 31 12) ∧
  decode 0x00000001#32 = .ok (.init 0 0) ∧
  decode 0x00000002#32 = .ok .encrypt ∧
  decode 0x00000003#32 = .ok .keystream ∧
  (∀ i, decode 0x00000004#32 ≠ .ok i) ∧
  (∀ i, decode 0x00000010#32 ≠ .ok i) ∧
  (∀ i, decode 0x00000102#32 ≠ .ok i) ∧
  (∀ i, decode 0x01200C01#32 ≠ .ok i)

/-- R78: the pseudo-instructions and their words. -/
def Obligations.PseudoInstructionsAssemble : Prop :=
  asmWord .initIetf = some 0x00200C01#32 ∧ asmWord .initIetf = asmWord (.init 32 12) ∧
  asmWord .initExt = some 0x00200801#32 ∧ asmWord .initExt = asmWord (.init 32 8) ∧
  asmWord .decrypt = some 0x00000002#32 ∧ asmWord .decrypt = asmWord .encrypt ∧
  asmWord .clrerr = some 0x00000000#32 ∧ asmWord .clrerr = asmWord .nop

/-- R77: `INIT klen, nlen` with operands 0 to 255 assembles to `0x00000001 + (klen << 16) + (nlen << 8)`, which decodes to
the command; with other operands to nothing. -/
def Obligations.InitLinesAssemble : Prop :=
  ∀ klen nlen : Nat,
    (klen ≤ 255 ∧ nlen ≤ 255 →
      ∃ w, asmWord (.init klen nlen) = some w ∧ w.toNat = 1 + klen * 2 ^ 16 + nlen * 2 ^ 8 ∧
        decode w = .ok (.init klen nlen)) ∧
    (255 < klen ∨ 255 < nlen → asmWord (.init klen nlen) = none)

/-! ## The step -/

/-- R104, R105: a host's 32-bit write of a legal word to `CMD` runs exactly the command it decodes to. -/
def Obligations.StepRunsTheDecodedCommand : Prop :=
  ∀ (s : State) (w : Word) (i : Instr) (rest : List Txn),
    s.Ready → s.bus = .write (s.plat.regBase + 0x00) 4 w :: rest → decode w = .ok i →
      step s = exec i { s with bus := rest }

/-- R74: a word that matches no row of R73 raises `ILLEGAL_COMMAND`, in every engine state, and nothing else changes. -/
def Obligations.IllegalWordsRaiseIllegalCommand : Prop :=
  ∀ (s : State) (w : Word) (rest : List Txn),
    s.Ready → s.bus = .write (s.plat.regBase + 0x00) 4 w :: rest →
    w &&& 0xFFFFFFFF#32 ≠ 0x00000000#32 → w &&& 0xFF0000FF#32 ≠ 0x00000001#32 →
    w &&& 0xFFFFFFFF#32 ≠ 0x00000002#32 → w &&& 0xFFFFFFFF#32 ≠ 0x00000003#32 →
      step s = .next { s with bus := rest, err := .illegalCommand }

/-- R108: between transactions the engine is idle and its state is constant. -/
def Obligations.IdleEngineIsConstant : Prop :=
  ∀ s : State, s.bus = [] → step s = .next s

/-- R61: on a platform that maps the register window into the range the master port reaches, no transaction is performed. -/
def Obligations.WindowInsideMemoryIsRefused : Prop :=
  ∀ s : State, s.bus ≠ [] → s.plat.regBase < s.plat.memSize → step s = .refused .platformOutsideSpec

/-! ## The register window -/

/-- R102: what a read of each window offset returns, that it changes nothing else, and that a read of another width or
alignment returns 0 (R54). Before the first `INIT` (in a state that meets the invariant) the state words read 0. -/
def Obligations.WindowReads : Prop :=
  ∀ s : State, s.Ready →
    readsAs s 0x00 0x00000000#32 ∧
    readsAs s 0x04
      (((errNumber s.err).zeroExtend 32 <<< 4) ||| ((BitVec.ofBool s.stream.wrap).zeroExtend 32 <<< 2) |||
        ((if s.stream.layout = .ext then 1#32 else 0#32) <<< 1) ||| (BitVec.ofBool s.initd).zeroExtend 32) ∧
    readsAs s 0x08 (s.stream.kpos.zeroExtend 32) ∧
    readsAs s 0x10 s.src ∧ readsAs s 0x14 s.dst ∧ readsAs s 0x18 s.len ∧
    readsAs s 0x1C s.keyaddr ∧ readsAs s 0x20 s.nonceaddr ∧ readsAs s 0x24 s.ctrinit ∧
    (∀ i : Fin 16, readsAs s (0x40 + 4 * i.val) s.stream.S[i]) ∧
    (s.Inv → s.initd = false → ∀ i : Fin 16, readsAs s (0x40 + 4 * i.val) 0x00000000#32) ∧
    (∀ off, reservedOffset off → readsAs s off 0x00000000#32) ∧
    (∀ off width, off < 0x100 → width ≠ 4 ∨ off % 4 ≠ 0 →
      step (withTxn s (.read (s.plat.regBase + off) width)) = .next { s with bus := [], rdata := 0x00000000#32 })

/-- R100: what a write at each window offset does: a command at 0x00, an operand register at its offset, nothing at a
read-only or reserved offset, and nothing for another width or alignment (R54). -/
def Obligations.WindowWrites : Prop :=
  ∀ (s : State) (v : Word), s.Ready →
    step (withTxn s (.write (s.plat.regBase + 0x00) 4 v)) = issueCommand v { s with bus := [] } ∧
    writesTo s 0x10 v { s with src := v } ∧ writesTo s 0x14 v { s with dst := v } ∧
    writesTo s 0x18 v { s with len := v } ∧ writesTo s 0x1C v { s with keyaddr := v } ∧
    writesTo s 0x20 v { s with nonceaddr := v } ∧ writesTo s 0x24 v { s with ctrinit := v } ∧
    writesTo s 0x04 v s ∧ writesTo s 0x08 v s ∧
    (∀ i : Fin 16, writesTo s (0x40 + 4 * i.val) v s) ∧
    (∀ off, reservedOffset off → writesTo s off v s) ∧
    (∀ off width, off < 0x100 → width ≠ 4 ∨ off % 4 ≠ 0 →
      step (withTxn s (.write (s.plat.regBase + off) width v)) = .next { s with bus := [] })

/-- R35, R200: the fields of `STATUS`, the numbers of the result codes, that no other number is produced, that a write to `STATUS` is
ignored, and by which commands each error is raised. -/
def Obligations.StatusFields : Prop :=
  ∀ s : State,
    (statusWord s).getLsbD 0 = s.initd ∧
    ((statusWord s).getLsbD 1 = true ↔ s.stream.layout = .ext) ∧
    (statusWord s).getLsbD 2 = s.stream.wrap ∧
    (statusWord s).getLsbD 3 = false ∧
    (statusWord s).extractLsb' 4 4 = errNumber s.err ∧
    errNumber .ok = 0#4 ∧ errNumber .invalidKeyLength = 1#4 ∧ errNumber .invalidNonceLength = 2#4 ∧
    errNumber .bufferTooSmall = 3#4 ∧ errNumber .notInitialized = 4#4 ∧ errNumber .illegalCommand = 5#4 ∧
    (errNumber s.err).toNat ≤ 5 ∧
    (∀ (w : Word) (t : State), issueCommand w s = .next t →
      (t.err = .invalidKeyLength ∨ t.err = .invalidNonceLength → ∃ klen nlen, decode w = .ok (.init klen nlen)) ∧
      (t.err = .bufferTooSmall →
        (∃ klen nlen, decode w = .ok (.init klen nlen)) ∨ decode w = .ok .encrypt ∨ decode w = .ok .keystream) ∧
      (t.err = .notInitialized → decode w = .ok .encrypt ∨ decode w = .ok .keystream) ∧
      (t.err = .illegalCommand ↔ ∀ i, decode w ≠ .ok i)) ∧
    (statusWord s).extractLsb' 8 24 = 0 ∧
    (s.Ready → ∀ v, writesTo s 0x04 v s ∧ readsAs s 0x04 (statusWord s)) ∧
    statusWord State.reset = 0x00000000#32

/-! ## Words, bytes, the permutation -/

/-- R10: `LE32` and `SER`, and that they are inverse to each other. -/
def Obligations.LittleEndianWords : Prop :=
  (∀ b0 b1 b2 b3 : Byte,
    le32 b0 b1 b2 b3 =
      b0.zeroExtend 32 ||| (b1.zeroExtend 32 <<< 8) ||| (b2.zeroExtend 32 <<< 16) ||| (b3.zeroExtend 32 <<< 24) ∧
    ser (le32 b0 b1 b2 b3) = [b0, b1, b2, b3]) ∧
  (∀ w : Word,
    ser w = [w.extractLsb' 0 8, w.extractLsb' 8 8, w.extractLsb' 16 8, w.extractLsb' 24 8] ∧
    le32 (w.extractLsb' 0 8) (w.extractLsb' 8 8) (w.extractLsb' 16 8) (w.extractLsb' 24 8) = w)

/-- R130: bit `i` of `rotl32(x, n)` is bit `(i - n) mod 32` of `x`. -/
def Obligations.RotationBits : Prop :=
  ∀ (x : Word) (n i : Nat), 0 < n → n < 32 → i < 32 → (rotl32 x n).getLsbD i = x.getLsbD ((i + 32 - n) % 32)

/-- R131: the four words of a quarter-round, line by line, and that the other twelve are as before. -/
def Obligations.QuarterRoundLines : Prop :=
  ∀ (X : Words) (a b c d : Fin 16), a ≠ b → a ≠ c → a ≠ d → b ≠ c → b ≠ d → c ≠ d →
    let a1 := X[a] + X[b]
    let d1 := rotl32 (X[d] ^^^ a1) 16
    let c1 := X[c] + d1
    let b1 := rotl32 (X[b] ^^^ c1) 12
    let a2 := a1 + b1
    let d2 := rotl32 (d1 ^^^ a2) 8
    let c2 := c1 + d2
    let b2 := rotl32 (b1 ^^^ c2) 7
    (quarterRound X a b c d)[a] = a2 ∧ (quarterRound X a b c d)[b] = b2 ∧
    (quarterRound X a b c d)[c] = c2 ∧ (quarterRound X a b c d)[d] = d2 ∧
    ∀ i : Fin 16, i ≠ a → i ≠ b → i ≠ c → i ≠ d → (quarterRound X a b c d)[i] = X[i]

/-- R140: the four quarter-rounds of a round give the same words in any order and all four at once (each lane computed from
the words before the round), and the two rounds do not commute. -/
def Obligations.RoundLanesAreIndependent : Prop :=
  (∀ (X : Words) (lanes : List (Fin 16 × Fin 16 × Fin 16 × Fin 16)),
    lanes.Perm [(0, 4, 8, 12), (1, 5, 9, 13), (2, 6, 10, 14), (3, 7, 11, 15)] →
      lanes.foldl (fun Y l => quarterRound Y l.1 l.2.1 l.2.2.1 l.2.2.2) X = columnRound X) ∧
  (∀ (X : Words) (lanes : List (Fin 16 × Fin 16 × Fin 16 × Fin 16)),
    lanes.Perm [(0, 5, 10, 15), (1, 6, 11, 12), (2, 7, 8, 13), (3, 4, 9, 14)] →
      lanes.foldl (fun Y l => quarterRound Y l.1 l.2.1 l.2.2.1 l.2.2.2) X = diagonalRound X) ∧
  (∀ (X : Words) (l : Fin 16 × Fin 16 × Fin 16 × Fin 16) (i : Fin 16),
    l ∈ [((0, 4, 8, 12) : Fin 16 × Fin 16 × Fin 16 × Fin 16), (1, 5, 9, 13), (2, 6, 10, 14), (3, 7, 11, 15)] →
    i = l.1 ∨ i = l.2.1 ∨ i = l.2.2.1 ∨ i = l.2.2.2 →
      (columnRound X)[i] = (quarterRound X l.1 l.2.1 l.2.2.1 l.2.2.2)[i]) ∧
  (∀ (X : Words) (l : Fin 16 × Fin 16 × Fin 16 × Fin 16) (i : Fin 16),
    l ∈ [((0, 5, 10, 15) : Fin 16 × Fin 16 × Fin 16 × Fin 16), (1, 6, 11, 12), (2, 7, 8, 13), (3, 4, 9, 14)] →
    i = l.1 ∨ i = l.2.1 ∨ i = l.2.2.1 ∨ i = l.2.2.2 →
      (diagonalRound X)[i] = (quarterRound X l.1 l.2.1 l.2.2.1 l.2.2.2)[i]) ∧
  (∃ X : Words, columnRound (diagonalRound X) ≠ diagonalRound (columnRound X))

/-- R135, R136, R137: byte `4i + j` of a keystream block is byte `j`, least significant first, of word `i` of the state after
ten double rounds plus word `i` of the state before them. -/
def Obligations.BlockBytes : Prop :=
  ∀ (S : Words) (i : Fin 16) (j : Fin 4),
    (block S)[4 * i.val + j.val] =
      ((Nat.repeat (fun X => diagonalRound (columnRound X)) 10 S)[i] + S[i]).extractLsb' (8 * j.val) 8

/-! ## The counter -/

/-- R151: in `EXT` the 64-bit counter advances by one modulo 2^64, and no other word changes. -/
def Obligations.ExtCounterIncrement : Prop :=
  ∀ (carry : Bool) (st : Stream), st.layout = .ext →
    counter64 (counterIncrement carry st).S = (counter64 st.S + 1) % 2 ^ 64 ∧
    (∀ i : Fin 16, i ≠ 12 → i ≠ 13 → (counterIncrement carry st).S[i] = st.S[i])

/-- R152: in `IETF` word 12 advances by one modulo 2^32; word 13 changes only on a wrap and only where `IETF_WRAP_CARRY` is 1;
no other word changes; `WRAP` is set on a wrap for either value. -/
def Obligations.IetfCounterIncrement : Prop :=
  ∀ (carry : Bool) (st : Stream), st.layout = .ietf →
    (counterIncrement carry st).S[12].toNat = (st.S[12].toNat + 1) % 2 ^ 32 ∧
    (counterIncrement carry st).S[13] =
      (if st.S[12] = 0xFFFFFFFF#32 ∧ carry = true then st.S[13] + 1#32 else st.S[13]) ∧
    (∀ i : Fin 16, i ≠ 12 → i ≠ 13 → (counterIncrement carry st).S[i] = st.S[i]) ∧
    (st.S[12] = 0xFFFFFFFF#32 → (counterIncrement carry st).wrap = true)

/-- R153: `WRAP` is set by every increment whose new `S[12]` is 0, in either layout, and stays 1 until a reset or the next
successful `INIT`. -/
def Obligations.WrapIsSticky : Prop :=
  (∀ (carry : Bool) (st : Stream),
    (counterIncrement carry st).wrap = true ↔ st.wrap = true ∨ (counterIncrement carry st).S[12] = 0#32) ∧
  (∀ (s t : State) (x : Txn) (rest : List Txn),
    s.stream.wrap = true → s.bus = x :: rest → step s = .next t →
      t.stream.wrap = true ∨ resetsEngine x s = true ∨ initialises x s t)

/-! ## The keystream -/

/-- R161: the next keystream byte, where none is buffered and where one is. -/
def Obligations.NextByteRefillsOnlyWhenEmpty : Prop :=
  ∀ (carry : Bool) (st : Stream),
    (st.kpos = 0#6 →
      (nextKeystreamByte carry st).1 = (block st.S)[0] ∧
      (nextKeystreamByte carry st).2 =
        { counterIncrement carry st with kbuf := block st.S, kpos := 1#6 }) ∧
    (st.kpos ≠ 0#6 →
      (nextKeystreamByte carry st).1 = st.kbuf[st.kpos.toNat]'(st.kpos.isLt) ∧
      (nextKeystreamByte carry st).2 = { st with kpos := BitVec.ofNat 6 ((st.kpos.toNat + 1) % 64) })

/-- R161 (derived): byte `m` after a position with no buffered byte is byte `m mod 64` of the block with the counter
`floor(m / 64)` increments on. -/
def Obligations.KeystreamByPosition : Prop :=
  ∀ (carry : Bool) (st : Stream) (n m : Nat), st.kpos = 0#6 → m < n →
    (takeKeystream carry n st).1[m]? =
      some ((block (advance carry (m / 64) st).S)[m % 64]'(Nat.mod_lt m (by decide)))

/-- R162, R163 (corner cases): the blocks one successful command generates, and the position it leaves. -/
def Obligations.BlocksOfOneCommand : Prop :=
  ∀ (i : Instr) (s t : State), i = .encrypt ∨ i = .keystream → exec i s = .next t → t.err = .ok →
    t.stream.kpos.toNat = (s.stream.kpos.toNat + s.len.toNat) % 64 ∧
    t.stream.S = (advance s.plat.ietfWrapCarry (blocksFor s.stream.kpos.toNat s.len.toNat) s.stream).S ∧
    t.stream.wrap = (advance s.plat.ietfWrapCarry (blocksFor s.stream.kpos.toNat s.len.toNat) s.stream).wrap ∧
    t.stream.layout = s.stream.layout

/-- R170: a successful command of 63, 64 or 65 bytes on a fresh stream: the blocks it generates, which of their bytes are its
keystream bytes, the position it leaves, and the block counter: word 12, and in `EXT` the 64 bits of words 13 and 12. -/
def Obligations.BlockSizeBoundaries : Prop :=
  ∀ (i : Instr) (s t : State), i = .encrypt ∨ i = .keystream → s.stream.kpos = 0#6 → exec i s = .next t → t.err = .ok →
    let first := block s.stream.S
    let second := block (counterIncrement s.plat.ietfWrapCarry s.stream).S
    let bytes := (takeKeystream s.plat.ietfWrapCarry s.len.toNat s.stream).1
    (s.len = 63#32 → bytes = first.toList.take 63 ∧ t.stream.kbuf = first ∧ t.stream.kpos = 63#6 ∧
      t.stream.S[12] = s.stream.S[12] + 1#32 ∧
      (s.stream.layout = .ext → counter64 t.stream.S = (counter64 s.stream.S + 1) % 2 ^ 64)) ∧
    (s.len = 64#32 → bytes = first.toList ∧ t.stream.kbuf = first ∧ t.stream.kpos = 0#6 ∧
      t.stream.S[12] = s.stream.S[12] + 1#32 ∧
      (s.stream.layout = .ext → counter64 t.stream.S = (counter64 s.stream.S + 1) % 2 ^ 64)) ∧
    (s.len = 65#32 → bytes = first.toList ++ [second[0]] ∧ t.stream.kbuf = second ∧ t.stream.kpos = 1#6 ∧
      t.stream.S[12] = s.stream.S[12] + 2#32 ∧
      (s.stream.layout = .ext → counter64 t.stream.S = (counter64 s.stream.S + 2) % 2 ^ 64))

/-- R155: from a fresh stream, after any run that moved `n` keystream bytes in all, `ceil(n / 64)` blocks have been generated:
the counter of either layout, word 13 of `IETF` (R152), the position, and `WRAP`. -/
def Obligations.CounterAdvancesWithBytesMoved : Prop :=
  ∀ (s t : State) (n : Nat), s.stream.kpos = 0#6 → Streamed s n t →
    t.stream.kpos.toNat = n % 64 ∧
    t.stream.layout = s.stream.layout ∧
    (s.stream.layout = .ext →
      counter64 t.stream.S = (counter64 s.stream.S + (n + 63) / 64) % 2 ^ 64) ∧
    (s.stream.layout = .ietf →
      t.stream.S[12].toNat = (s.stream.S[12].toNat + (n + 63) / 64) % 2 ^ 32 ∧
      t.stream.S[13].toNat =
        (s.stream.S[13].toNat +
          (if s.plat.ietfWrapCarry then (s.stream.S[12].toNat + (n + 63) / 64) / 2 ^ 32 else 0)) % 2 ^ 32) ∧
    t.stream.wrap = (s.stream.wrap || decide (2 ^ 32 ≤ s.stream.S[12].toNat + (n + 63) / 64))

/-! ## NOP and the errors -/

/-- R160: `NOP` sets `ERR` to `OK` and does nothing else. -/
def Obligations.NopOnlyClearsErr : Prop :=
  ∀ s : State, exec .nop s = .next { s with err := .ok }

/-- R203, R204: `INIT` with a key length other than 32, and with a key length of 32 and a nonce length other than 8 and 12. -/
def Obligations.InitRejectsLengths : Prop :=
  ∀ (s : State) (klen nlen : Nat),
    (klen ≠ 32 → exec (.init klen nlen) s = .next { s with err := .invalidKeyLength }) ∧
    (nlen ≠ 8 → nlen ≠ 12 → exec (.init 32 nlen) s = .next { s with err := .invalidNonceLength })

/-- R206: `ENCRYPT` and `KEYSTREAM` while `INITD` = 0, whatever `LEN` is. -/
def Obligations.ApplyNeedsAStream : Prop :=
  ∀ s : State, s.initd = false →
    exec .encrypt s = .next { s with err := .notInitialized } ∧
    exec .keystream s = .next { s with err := .notInitialized }

/-- R205: a buffer the command would access reaches past the end of memory, in exact integers. -/
def Obligations.OutsideBuffersAreTooSmall : Prop :=
  ∀ s : State,
    (∀ nlen, nlen = 8 ∨ nlen = 12 →
      s.plat.memSize < s.keyaddr.toNat + 32 ∨ s.plat.memSize < s.nonceaddr.toNat + nlen →
        exec (.init 32 nlen) s = .next { s with err := .bufferTooSmall }) ∧
    (s.initd = true → 0 < s.len.toNat →
      s.plat.memSize < s.src.toNat + s.len.toNat ∨ s.plat.memSize < s.dst.toNat + s.len.toNat →
        exec .encrypt s = .next { s with err := .bufferTooSmall }) ∧
    (s.initd = true → 0 < s.len.toNat → s.plat.memSize < s.dst.toNat + s.len.toNat →
        exec .keystream s = .next { s with err := .bufferTooSmall })

/-- R201: a command that reports an error has changed nothing but `ERR`. -/
def Obligations.FailedCommandChangesOnlyErr : Prop :=
  ∀ (s t : State) (w : Word), issueCommand w s = .next t → t.err ≠ .ok → t = { s with err := t.err }

/-- R106, R207: where all of memory is plain, every command completes and writes to `ERR` the code of the first failing check, or
`OK`; elsewhere too, a command that completes writes that code; and no command reads `ERR`. -/
def Obligations.CommandsReportTheFirstFailingCheck : Prop :=
  ∀ (s : State) (w : Word),
    (s.plat.devices = [] → ∃ t, issueCommand w s = .next t ∧ t.err = resultCode w s) ∧
    (∀ t, issueCommand w s = .next t → t.err = resultCode w s) ∧
    (∀ e : ErrCode, issueCommand w { s with err := e } = issueCommand w s)

/-- R169: a zero length succeeds with no other effect, whatever the addresses. -/
def Obligations.ZeroLengthIsANoOp : Prop :=
  ∀ s : State, s.initd = true → s.len = 0#32 →
    exec .encrypt s = .next { s with err := .ok } ∧ exec .keystream s = .next { s with err := .ok }

/-- R57: a command whose buffers are in memory but cover an address with side effects is refused. -/
def Obligations.SideEffectMemoryIsRefused : Prop :=
  ∀ s : State,
    (∀ nlen, nlen = 8 ∨ nlen = 12 →
      s.keyaddr.toNat + 32 ≤ s.plat.memSize → s.nonceaddr.toNat + nlen ≤ s.plat.memSize →
      ¬ (plainBuffer s.plat s.keyaddr.toNat 32 ∧ plainBuffer s.plat s.nonceaddr.toNat nlen) →
        exec (.init 32 nlen) s = .refused .sideEffectMemory) ∧
    (s.initd = true → 0 < s.len.toNat →
      s.src.toNat + s.len.toNat ≤ s.plat.memSize → s.dst.toNat + s.len.toNat ≤ s.plat.memSize →
      ¬ (plainBuffer s.plat s.src.toNat s.len.toNat ∧ plainBuffer s.plat s.dst.toNat s.len.toNat) →
        exec .encrypt s = .refused .sideEffectMemory) ∧
    (s.initd = true → 0 < s.len.toNat → s.dst.toNat + s.len.toNat ≤ s.plat.memSize →
      ¬ plainBuffer s.plat s.dst.toNat s.len.toNat →
        exec .keystream s = .refused .sideEffectMemory)

/-! ## INIT -/

/-- R121 to R125: `INIT` with legal lengths and valid plain buffers completes and begins a stream: the constants, the key words, the
counter and the nonce words of the layout, and the flags; nothing outside the stream, `INITD` and `ERR` changes. A key or nonce
word is that of memory where no other master writes its bytes meanwhile (R64). -/
def Obligations.InitBeginsAStream : Prop :=
  ∀ (s : State) (nlen : Nat), nlen = 8 ∨ nlen = 12 →
    s.keyaddr.toNat + 32 ≤ s.plat.memSize → s.nonceaddr.toNat + nlen ≤ s.plat.memSize →
    plainBuffer s.plat s.keyaddr.toNat 32 → plainBuffer s.plat s.nonceaddr.toNat nlen →
    ∃ st : Stream,
      exec (.init 32 nlen) s = .next { s with stream := st, initd := true, err := .ok } ∧
      st.S[0] = 0x61707865#32 ∧ st.S[1] = 0x3320646e#32 ∧ st.S[2] = 0x79622d32#32 ∧ st.S[3] = 0x6b206574#32 ∧
      (∀ i : Fin 8, unraced s (s.keyaddr.toNat + 4 * i.val) 4 →
        st.S[4 + i.val] = memWord s (s.keyaddr.toNat + 4 * i.val)) ∧
      st.S[12] = s.ctrinit ∧
      (nlen = 12 → st.layout = .ietf ∧
        ∀ i : Fin 3, unraced s (s.nonceaddr.toNat + 4 * i.val) 4 →
          st.S[13 + i.val] = memWord s (s.nonceaddr.toNat + 4 * i.val)) ∧
      (nlen = 8 → st.layout = .ext ∧ st.S[13] = 0#32 ∧
        ∀ i : Fin 2, unraced s (s.nonceaddr.toNat + 4 * i.val) 4 →
          st.S[14 + i.val] = memWord s (s.nonceaddr.toNat + 4 * i.val)) ∧
      st.wrap = false ∧ st.kpos = 0#6 ∧ st.kbuf = Vector.replicate 64 0#8

/-- R127: two successful `INIT`s with the same key and nonce bytes, lengths and `CTRINIT` begin the same stream, whatever either
engine held before. -/
def Obligations.SameInitSameStream : Prop :=
  ∀ (s s' t t' : State) (nlen : Nat),
    (∀ j, j < 32 → s.mem.read (s.keyaddr.toNat + j) = s'.mem.read (s'.keyaddr.toNat + j)) →
    (∀ j, j < nlen → s.mem.read (s.nonceaddr.toNat + j) = s'.mem.read (s'.nonceaddr.toNat + j)) →
    s.ctrinit = s'.ctrinit → s.raced = [] → s'.raced = [] →
    exec (.init 32 nlen) s = .next t → t.err = .ok → exec (.init 32 nlen) s' = .next t' → t'.err = .ok →
      t.stream = t'.stream

/-! ## ENCRYPT and KEYSTREAM -/

/-- R162, R58, R59: `ENCRYPT` with a stream, a length and valid plain buffers completes. The stream is that after `LEN` keystream
bytes, memory outside the destination buffer is as before, and no register changes. Where the buffers are the same or disjoint,
each destination byte is the source byte (as no other master writes it meanwhile) xor its keystream byte. -/
def Obligations.EncryptResult : Prop :=
  ∀ s : State, s.mem.wf → s.initd = true → 0 < s.len.toNat →
    s.src.toNat + s.len.toNat ≤ s.plat.memSize → s.dst.toNat + s.len.toNat ≤ s.plat.memSize →
    plainBuffer s.plat s.src.toNat s.len.toNat → plainBuffer s.plat s.dst.toNat s.len.toNat →
    ∃ (m : Memory) (d : Nat),
      exec .encrypt s =
        .next { s with
          mem := m, draws := d, err := .ok
          stream := (takeKeystream s.plat.ietfWrapCarry s.len.toNat s.stream).2 } ∧
      (∀ a, a < s.dst.toNat ∨ s.dst.toNat + s.len.toNat ≤ a → m.read a = s.mem.read a) ∧
      (sameOrDisjoint s.src.toNat s.dst.toNat s.len.toNat →
        d = s.draws ∧
        ∀ i, i < s.len.toNat → s.src.toNat + i ∉ s.raced →
          (takeKeystream s.plat.ietfWrapCarry s.len.toNat s.stream).1[i]? =
            some (m.read (s.dst.toNat + i) ^^^ s.mem.read (s.src.toNat + i)))

/-- R163: `KEYSTREAM` with a stream, a length and a valid plain destination completes: the destination holds the next `LEN`
keystream bytes, and nothing but the stream, those bytes and `ERR` changes. -/
def Obligations.KeystreamResult : Prop :=
  ∀ s : State, s.mem.wf → s.initd = true → 0 < s.len.toNat →
    s.dst.toNat + s.len.toNat ≤ s.plat.memSize → plainBuffer s.plat s.dst.toNat s.len.toNat →
    ∃ m : Memory,
      exec .keystream s =
        .next { s with
          mem := m, err := .ok, stream := (takeKeystream s.plat.ietfWrapCarry s.len.toNat s.stream).2 } ∧
      (∀ a, a < s.dst.toNat ∨ s.dst.toNat + s.len.toNat ≤ a → m.read a = s.mem.read a) ∧
      (∀ i, i < s.len.toNat →
        (takeKeystream s.plat.ietfWrapCarry s.len.toNat s.stream).1[i]? = some (m.read (s.dst.toNat + i)))

/-- The frame of the storing commands (R32, R22, R24, R25, R168): whatever next state they give, no operand register, no flag but `WRAP`
and `ERR`, no state word but 12 and 13, and no byte outside the destination buffer changes. -/
def Obligations.StoringCommandsFrame : Prop :=
  ∀ (i : Instr) (s t : State), i = .encrypt ∨ i = .keystream → s.mem.wf → exec i s = .next t →
    t.src = s.src ∧ t.dst = s.dst ∧ t.len = s.len ∧ t.keyaddr = s.keyaddr ∧ t.nonceaddr = s.nonceaddr ∧
    t.ctrinit = s.ctrinit ∧ t.initd = s.initd ∧ t.stream.layout = s.stream.layout ∧
    (∀ j : Fin 16, j ≠ 12 → j ≠ 13 → t.stream.S[j] = s.stream.S[j]) ∧
    t.inReset = s.inReset ∧ t.plat = s.plat ∧ t.bus = s.bus ∧ t.rdata = s.rdata ∧ t.peerData = s.peerData ∧
    t.raced = s.raced ∧
    (∀ a b n, destBuffer i s = some (b, n) → a < b ∨ b + n ≤ a → t.mem.read a = s.mem.read a)

/-- The frame of the commands that store nothing (R32, R51, R126): `NOP` and `INIT` change no byte of memory and no operand register,
and `NOP` no part of the stream. -/
def Obligations.NonStoringCommandsFrame : Prop :=
  ∀ (i : Instr) (s t : State), i = .nop ∨ (∃ klen nlen, i = .init klen nlen) → exec i s = .next t →
    t.mem = s.mem ∧ (∀ a, t.mem.read a = s.mem.read a) ∧
    t.src = s.src ∧ t.dst = s.dst ∧ t.len = s.len ∧ t.keyaddr = s.keyaddr ∧ t.nonceaddr = s.nonceaddr ∧
    t.ctrinit = s.ctrinit ∧
    t.inReset = s.inReset ∧ t.plat = s.plat ∧ t.bus = s.bus ∧ t.rdata = s.rdata ∧ t.peerData = s.peerData ∧
    t.raced = s.raced ∧ t.draws = s.draws ∧
    (i = .nop ∨ t.err ≠ .ok → t.stream = s.stream ∧ t.initd = s.initd)

/-- R167: `KEYSTREAM` of `LEN` bytes xored with the source gives what `ENCRYPT` of it gives. -/
def Obligations.KeystreamXorSourceIsEncrypt : Prop :=
  ∀ s t u : State, s.mem.wf → s.raced = [] → sameOrDisjoint s.src.toNat s.dst.toNat s.len.toNat →
    exec .keystream s = .next t → t.err = .ok → exec .encrypt s = .next u → u.err = .ok →
      u.stream = t.stream ∧
      ∀ i, i < s.len.toNat →
        u.mem.read (s.dst.toNat + i) = t.mem.read (s.dst.toNat + i) ^^^ s.mem.read (s.src.toNat + i)

/-- R166, R58: with the same stream, length and source bytes, `ENCRYPT` writes the same bytes and leaves the same stream, wherever the
buffers lie (in place or apart) and whatever else memory and the registers hold. -/
def Obligations.EncryptIsDeterminedByStreamAndSource : Prop :=
  ∀ s s' t t' : State, s.mem.wf → s'.mem.wf → s.raced = [] → s'.raced = [] →
    s.stream = s'.stream → s.plat.ietfWrapCarry = s'.plat.ietfWrapCarry → s.len = s'.len →
    (∀ i, i < s.len.toNat → s.mem.read (s.src.toNat + i) = s'.mem.read (s'.src.toNat + i)) →
    sameOrDisjoint s.src.toNat s.dst.toNat s.len.toNat → sameOrDisjoint s'.src.toNat s'.dst.toNat s'.len.toNat →
    exec .encrypt s = .next t → t.err = .ok → exec .encrypt s' = .next t' → t'.err = .ok →
      t.stream = t'.stream ∧
      ∀ i, i < s.len.toNat → t.mem.read (s.dst.toNat + i) = t'.mem.read (s'.dst.toNat + i)

/-- R164: after two successful `INIT`s with the same key, nonce, lengths and `CTRINIT`, `ENCRYPT` of a message under the first and
`ENCRYPT` of the result under the second gives the message back. -/
def Obligations.DecryptUndoesEncrypt : Prop :=
  ∀ (a a' b b' s t u v : State) (nlen : Nat),
    (∀ j, j < 32 → a.mem.read (a.keyaddr.toNat + j) = b.mem.read (b.keyaddr.toNat + j)) →
    (∀ j, j < nlen → a.mem.read (a.nonceaddr.toNat + j) = b.mem.read (b.nonceaddr.toNat + j)) →
    a.ctrinit = b.ctrinit → a.raced = [] → b.raced = [] →
    exec (.init 32 nlen) a = .next a' → a'.err = .ok → exec (.init 32 nlen) b = .next b' → b'.err = .ok →
    s.stream = a'.stream → u.stream = b'.stream → s.plat.ietfWrapCarry = u.plat.ietfWrapCarry →
    s.mem.wf → u.mem.wf → s.raced = [] → u.raced = [] →
    sameOrDisjoint s.src.toNat s.dst.toNat s.len.toNat → sameOrDisjoint u.src.toNat u.dst.toNat u.len.toNat →
    exec .encrypt s = .next t → t.err = .ok →
    u.len = s.len → (∀ i, i < s.len.toNat → u.mem.read (u.src.toNat + i) = t.mem.read (s.dst.toNat + i)) →
    exec .encrypt u = .next v → v.err = .ok →
      ∀ i, i < s.len.toNat → v.mem.read (u.dst.toNat + i) = s.mem.read (s.src.toNat + i)

/-- R165: one `ENCRYPT` of `m + n` bytes, and one of `m` bytes followed by one of `n` bytes with `SRC` and `DST` advanced by `m`,
leave the same memory and the same stream, for any split. -/
def Obligations.EncryptIsResumable : Prop :=
  ∀ (s t : State) (m n : Nat), s.mem.wf → s.plat.wf = true → s.raced = [] → s.len.toNat = m + n →
    sameOrDisjoint s.src.toNat s.dst.toNat (m + n) →
    exec .encrypt s = .next t → t.err = .ok →
    ∃ u v : State,
      exec .encrypt { s with len := BitVec.ofNat 32 m } = .next u ∧ u.err = .ok ∧
      exec .encrypt
        { u with
          src := s.src + BitVec.ofNat 32 m, dst := s.dst + BitVec.ofNat 32 m, len := BitVec.ofNat 32 n } = .next v ∧
      v.err = .ok ∧ v.mem = t.mem ∧ v.stream = t.stream

/-! ## Whole-machine rules -/

/-- R20, R22, R24, R25, R26, R27: only a successful `INIT` or a reset changes `LAYOUT`, `INITD` and the state words other than 12 and
13; no transaction changes the platform. -/
def Obligations.OnlyInitChangesKeyAndLayout : Prop :=
  ∀ (s t : State) (x : Txn) (rest : List Txn), s.bus = x :: rest → step s = .next t →
    t.plat = s.plat ∧ t.bus = rest ∧
    (resetsEngine x s = true ∨ initialises x s t ∨
      (t.stream.layout = s.stream.layout ∧ t.initd = s.initd ∧
        ∀ j : Fin 16, j ≠ 12 → j ≠ 13 → t.stream.S[j] = s.stream.S[j]))

/-- R32, R101: an operand register takes the value a host writes to it with a 32-bit write while the window responds (R54, R230),
and holds its value through every other transaction but a reset; so no command writes one. -/
def Obligations.OnlyTheHostWritesOperandRegisters : Prop :=
  ∀ (s t : State) (x : Txn) (rest : List Txn), s.bus = x :: rest → step s = .next t → resetsEngine x s = false →
    t.src = operandAfter x s 0x10 s.src ∧
    t.dst = operandAfter x s 0x14 s.dst ∧
    t.len = operandAfter x s 0x18 s.len ∧
    t.keyaddr = operandAfter x s 0x1C s.keyaddr ∧
    t.nonceaddr = operandAfter x s 0x20 s.nonceaddr ∧
    t.ctrinit = operandAfter x s 0x24 s.ctrinit

/-! ## Shared memory and the other masters -/

/-- R63, R50: a host's write of a byte of plain memory is seen by its next read, other bytes are as before, the engine's state does
not change, and an access past `MEM_SIZE` faults (the fault is the model's choice, assumption log 5, as is the form of the host's
access, assumption log 17). -/
def Obligations.HostMemoryAccess : Prop :=
  ∀ (s : State) (a : Nat) (v : Byte), s.plat.wf = true → s.mem.wf →
    (a < s.plat.memSize → plainBuffer s.plat a 1 →
      ∃ m : Memory, step (withTxn s (.memWrite a v)) = .next { s with bus := [], mem := m } ∧
        m.read a = v ∧ (∀ b, b ≠ a → m.read b = s.mem.read b) ∧
        step (withTxn { s with mem := m } (.memRead a)) =
          .next { s with bus := [], mem := m, rdata := v.zeroExtend 32 }) ∧
    (s.plat.memSize ≤ a →
      step (withTxn s (.memWrite a v)) = .fault (.noSuchMemory a) ∧
      step (withTxn s (.memRead a)) = .fault (.noSuchMemory a))

/-- R64: other masters' accesses during a command leave the engine's own state update unaffected: the stream a `NOP`, `ENCRYPT`,
`KEYSTREAM` or failing command leaves is as without them, and of the stream an `INIT` begins, everything but a key or nonce word of
which another master writes a byte. A byte of memory that they do not write is as without them; of a byte `ENCRYPT` stores this is said
where they do not write its source byte either, and where the buffers do not partially overlap (R59). A byte they read and do
not write is its old or its new value. How their writes stand in memory afterwards is the model's
choice (assumption log 8), and nothing is said of it. -/
def Obligations.ContendedCommandsUpdateTheEngineAlike : Prop :=
  ∀ (s t u : State) (w : Word) (writes : List Host.Cell) (reads : List Nat),
    s.Ready → s.mem.wf → s.raced = [] →
    step (withTxn s (.write (s.plat.regBase + 0x00) 4 w)) = .next t →
    step (withTxn s (.contended w writes reads)) = .next u →
      u.err = t.err ∧ u.initd = t.initd ∧ u.stream.layout = t.stream.layout ∧ u.stream.wrap = t.stream.wrap ∧
      u.stream.kpos = t.stream.kpos ∧ u.stream.S[12] = t.stream.S[12] ∧
      u.src = t.src ∧ u.dst = t.dst ∧ u.len = t.len ∧ u.keyaddr = t.keyaddr ∧ u.nonceaddr = t.nonceaddr ∧
      u.ctrinit = t.ctrinit ∧ u.raced = [] ∧
      ((∀ klen nlen, decode w ≠ .ok (.init klen nlen)) ∨ t.err ≠ .ok → u.stream = t.stream) ∧
      u.stream.kbuf = t.stream.kbuf ∧
      (∀ i : Fin 16, i.val < 4 → u.stream.S[i] = t.stream.S[i]) ∧
      (∀ i : Fin 8, (∀ j, j < 4 → s.keyaddr.toNat + 4 * i.val + j ∉ writes.map (·.1)) →
        u.stream.S[4 + i.val] = t.stream.S[4 + i.val]) ∧
      (t.stream.layout = .ietf →
        ∀ i : Fin 3, (∀ j, j < 4 → s.nonceaddr.toNat + 4 * i.val + j ∉ writes.map (·.1)) →
          u.stream.S[13 + i.val] = t.stream.S[13 + i.val]) ∧
      (t.stream.layout = .ext → u.stream.S[13] = t.stream.S[13] ∧
        ∀ i : Fin 2, (∀ j, j < 4 → s.nonceaddr.toNat + 4 * i.val + j ∉ writes.map (·.1)) →
          u.stream.S[14 + i.val] = t.stream.S[14 + i.val]) ∧
      (∀ a, a ∉ writes.map (·.1) →
        (decode w = .ok .encrypt → ∀ i, i < s.len.toNat → a = s.dst.toNat + i →
          s.src.toNat + i ∉ writes.map (·.1) ∧ sameOrDisjoint s.src.toNat s.dst.toNat s.len.toNat) →
          u.mem.read a = t.mem.read a) ∧
      u.peerData.length = reads.length ∧
      (∀ (k a : Nat), reads[k]? = some a → a ∉ writes.map (·.1) →
        u.peerData[k]? = some (s.mem.read a) ∨ u.peerData[k]? = some (u.mem.read a))

/-! ## Reset -/

/-- R231, R40: the machine right after reset. -/
def Obligations.ResetValues : Prop :=
  statusWord State.reset = 0x00000000#32 ∧ State.reset.initd = false ∧ State.reset.err = .ok ∧
  State.reset.stream.layout = .ietf ∧ State.reset.stream.wrap = false ∧
  kposWord State.reset = 0x00000000#32 ∧ State.reset.stream.kbuf = Vector.replicate 64 0#8 ∧
  State.reset.src = 0#32 ∧ State.reset.dst = 0#32 ∧ State.reset.len = 0#32 ∧ State.reset.keyaddr = 0#32 ∧
  State.reset.nonceaddr = 0#32 ∧ State.reset.ctrinit = 0#32 ∧
  (∀ i : Fin 16, readReg (.s i) State.reset = 0x00000000#32) ∧
  exec .encrypt State.reset = .next { State.reset with err := .notInitialized } ∧
  exec .keystream State.reset = .next { State.reset with err := .notInitialized }

/-- R230, R40, R232: when the reset is released every piece of engine state holds its reset value, and memory is as before; while
it is asserted the window does not respond, so that no window access changes any engine state. What a host gets meanwhile, and that
its access ends, are the model's choice (assumption log 9), as is that the assertion takes effect at once (assumption log 10). -/
def Obligations.ResetInput : Prop :=
  ∀ s : State, s.plat.wf = true →
    step (withTxn s .resetRelease) =
      .next { s with
        bus := [], inReset := false, stream := State.reset.stream, initd := State.reset.initd,
        err := State.reset.err, src := State.reset.src, dst := State.reset.dst, len := State.reset.len,
        keyaddr := State.reset.keyaddr, nonceaddr := State.reset.nonceaddr, ctrinit := State.reset.ctrinit } ∧
    (∃ t, step (withTxn s .resetAssert) = .next t ∧ t.inReset = true ∧ t.mem = s.mem) ∧
    (s.inReset = true →
      (∀ off width v, off < 0x100 →
        step (withTxn s (.write (s.plat.regBase + off) width v)) = .next { s with bus := [] }) ∧
      (∀ off width, off < 0x100 →
        ∃ v d, step (withTxn s (.read (s.plat.regBase + off) width)) =
          .next { s with bus := [], rdata := v, draws := d }))

/-- R232: a reset during a command whose buffers are plain memory leaves the engine freshly reset and memory outside the
command's destination buffer as it was; the bytes inside are free, and nothing is said of them. That this holds also for a command
that would have failed is the model's reading (assumption log 10). The second clause is the model's choice (assumption log 10): a
command refused for memory with side effects (R57) is refused alike when a reset interrupts it. -/
def Obligations.ResetDuringACommand : Prop :=
  ∀ (s : State) (w : Word), s.Ready → s.mem.wf →
    ((∀ b n, (b, n) ∈ commandBuffers w s → plainBuffer s.plat b n) →
      ∃ t : State, step (withTxn s (.resetDuring w)) = .next t ∧
        t.inReset = true ∧ t.stream = Stream.reset ∧ t.initd = false ∧ t.err = .ok ∧
        t.src = 0#32 ∧ t.dst = 0#32 ∧ t.len = 0#32 ∧ t.keyaddr = 0#32 ∧ t.nonceaddr = 0#32 ∧ t.ctrinit = 0#32 ∧
        t.mem.wf ∧
        (∀ a, (∀ i b n, decode w = .ok i → destBuffer i s = some (b, n) → a < b ∨ b + n ≤ a) →
          t.mem.read a = s.mem.read a)) ∧
    (issueCommand w { s with bus := [] } = .refused .sideEffectMemory →
      step (withTxn s (.resetDuring w)) = .refused .sideEffectMemory)

/-! ## The invariant -/

/-- The invariant holds of the machine right after reset. -/
def Obligations.InvariantAtReset : Prop := State.reset.Inv

/-- R41, R37, R50: every step keeps the invariant: memory's canonical form and bound, the constant words, the reset stream before
the first `INIT`, and that a buffered block is the one of the counter value before the present one. -/
def Obligations.StepKeepsTheInvariant : Prop :=
  ∀ s t : State, s.Inv → step s = .next t → t.Inv
end

