-- ==== Sys2Proof/Laws/Decode.lean ====
section
/-! SUPPORT. The fields and masks of a command word as arithmetic on its number. -/

namespace Sys2Proof

/-- The low byte of a word, by mask. -/
theorem and_low_byte (w : Word) : (w &&& 0x000000FF#32).toNat = w.toNat % 256 := by
  rw [BitVec.toNat_and, show (0x000000FF#32).toNat = 2 ^ 8 - 1 from rfl, Nat.and_two_pow_sub_one_eq_mod]

/-- The top byte of a word, by mask. -/
theorem and_high_byte_eq_zero (w : Word) : w &&& 0xFF000000#32 = 0#32 ↔ w.toNat / 2 ^ 24 = 0 := by
  have hlt := w.isLt
  have h : (w &&& 0xFF000000#32).toNat = (w.toNat / 2 ^ 24) * 2 ^ 24 := by
    rw [BitVec.toNat_and, show (0xFF000000#32).toNat = (2 ^ 8 - 1) * 2 ^ 24 from rfl]
    apply Nat.eq_of_testBit_eq
    intro i
    simp only [Nat.testBit_and, Nat.testBit_mul_two_pow, Nat.testBit_two_pow_sub_one, Nat.testBit_div_two_pow]
    by_cases hi : 24 ≤ i
    · by_cases h32 : i < 32
      · have : i - 24 < 8 := by omega
        simp [hi, this]
      · have : w.toNat.testBit i = false :=
          Nat.testBit_lt_two_pow (lt_of_lt_of_le hlt (Nat.pow_le_pow_right (by decide) (by omega)))
        simp [this, hi]
    · simp [hi]
  constructor
  · intro e
    rw [e] at h
    simp at h
    omega
  · intro e
    apply BitVec.eq_of_toNat_eq
    rw [h, e]
    rfl

/-- The row of `INIT` (R73): the low byte is 1 and the top byte is 0. -/
theorem init_row_iff (w : Word) :
    w &&& 0xFF0000FF#32 = 0x00000001#32 ↔ w.toNat % 256 = 1 ∧ w.toNat < 2 ^ 24 := by
  have split : w &&& 0xFF0000FF#32 = (w &&& 0x000000FF#32) ||| (w &&& 0xFF000000#32) := by
    rw [← BitVec.and_or_distrib_left]; rfl
  have low : (w &&& 0xFF0000FF#32) &&& 0x000000FF#32 = w &&& 0x000000FF#32 := by rw [BitVec.and_assoc]; rfl
  have high : (w &&& 0xFF0000FF#32) &&& 0xFF000000#32 = w &&& 0xFF000000#32 := by rw [BitVec.and_assoc]; rfl
  constructor
  · intro h
    rw [h] at low high
    have h1 := and_low_byte w
    rw [← low] at h1
    have h2 := (and_high_byte_eq_zero w).1 (by rw [← high]; rfl)
    refine ⟨by simpa using h1.symm, by omega⟩
  · rintro ⟨h1, h2⟩
    rw [split, (and_high_byte_eq_zero w).2 (by omega), BitVec.or_zero]
    apply BitVec.eq_of_toNat_eq
    rw [and_low_byte, h1]
    rfl

theorem fieldKlen_eq (w : Word) : fieldKlen w = w.toNat / 2 ^ 16 % 256 := by
  simp [fieldKlen, BitVec.extractLsb'_toNat, Nat.shiftRight_eq_div_pow]

theorem fieldNlen_eq (w : Word) : fieldNlen w = w.toNat / 2 ^ 8 % 256 := by
  simp [fieldNlen, BitVec.extractLsb'_toNat, Nat.shiftRight_eq_div_pow]

/-- The number of an `INIT` word (R77). -/
theorem encode_init_toNat {klen nlen : Nat} (hk : klen ≤ 255) (hn : nlen ≤ 255) :
    (encode (.init klen nlen)).toNat = 1 + klen * 2 ^ 16 + nlen * 2 ^ 8 := by
  simp only [encode, BitVec.toNat_add, BitVec.toNat_shiftLeft, BitVec.toNat_ofNat, Nat.shiftLeft_eq]
  omega

/-- Every way a word can decode (R76). -/
theorem decode_cases {w : Word} {i : Instr} (h : decode w = .ok i) :
    (i = .nop ∧ w = 0x00000000#32) ∨
    (i = .init (fieldKlen w) (fieldNlen w) ∧ w.toNat % 256 = 1 ∧ w.toNat < 2 ^ 24) ∨
    (i = .encrypt ∧ w = 0x00000002#32) ∨ (i = .keystream ∧ w = 0x00000003#32) := by
  unfold decode at h
  split at h
  · rename_i h0; cases h; exact .inl ⟨rfl, h0⟩
  · split at h
    · rename_i h1; cases h; exact .inr (.inl ⟨rfl, (init_row_iff w).1 h1⟩)
    · split at h
      · rename_i h2; cases h; exact .inr (.inr (.inl ⟨rfl, h2⟩))
      · split at h
        · rename_i h3; cases h; exact .inr (.inr (.inr ⟨rfl, h3⟩))
        · exact absurd h (by simp)

/-- A word of the `INIT` row decodes to `INIT` with its two fields (R76). -/
theorem decode_init_row {w : Word} (h1 : w.toNat % 256 = 1) (h2 : w.toNat < 2 ^ 24) :
    decode w = .ok (.init (fieldKlen w) (fieldNlen w)) := by
  have h0 : w ≠ 0x00000000#32 := by rintro rfl; simp at h1
  rw [decode, if_neg h0, if_pos ((init_row_iff w).2 ⟨h1, h2⟩)]

@[simp] theorem decode_nop : decode 0x00000000#32 = .ok .nop := by decide
@[simp] theorem decode_encrypt : decode 0x00000002#32 = .ok .encrypt := by decide
@[simp] theorem decode_keystream : decode 0x00000003#32 = .ok .keystream := by decide

end Sys2Proof
end

