-- ==== Sys2Proof/Laws/State.lean ====
section
/-! SUPPORT. One lemma per field per update of the state: what each shared update leaves in each field. -/

namespace Sys2Proof.Machine

/-! ## The end of a command -/

@[simp] theorem complete_stream (s : State) : (complete s).stream = s.stream := rfl
@[simp] theorem complete_initd (s : State) : (complete s).initd = s.initd := rfl
@[simp] theorem complete_err (s : State) : (complete s).err = .ok := rfl
@[simp] theorem complete_src (s : State) : (complete s).src = s.src := rfl
@[simp] theorem complete_dst (s : State) : (complete s).dst = s.dst := rfl
@[simp] theorem complete_len (s : State) : (complete s).len = s.len := rfl
@[simp] theorem complete_keyaddr (s : State) : (complete s).keyaddr = s.keyaddr := rfl
@[simp] theorem complete_nonceaddr (s : State) : (complete s).nonceaddr = s.nonceaddr := rfl
@[simp] theorem complete_ctrinit (s : State) : (complete s).ctrinit = s.ctrinit := rfl
@[simp] theorem complete_inReset (s : State) : (complete s).inReset = s.inReset := rfl
@[simp] theorem complete_mem (s : State) : (complete s).mem = s.mem := rfl
@[simp] theorem complete_plat (s : State) : (complete s).plat = s.plat := rfl
@[simp] theorem complete_bus (s : State) : (complete s).bus = s.bus := rfl
@[simp] theorem complete_rdata (s : State) : (complete s).rdata = s.rdata := rfl
@[simp] theorem complete_peerData (s : State) : (complete s).peerData = s.peerData := rfl
@[simp] theorem complete_raced (s : State) : (complete s).raced = s.raced := rfl
@[simp] theorem complete_draws (s : State) : (complete s).draws = s.draws := rfl

/-! ## The reset of the engine -/

@[simp] theorem engineReset_stream (s : State) : (engineReset s).stream = Stream.reset := rfl
@[simp] theorem engineReset_initd (s : State) : (engineReset s).initd = false := rfl
@[simp] theorem engineReset_err (s : State) : (engineReset s).err = .ok := rfl
@[simp] theorem engineReset_src (s : State) : (engineReset s).src = 0#32 := rfl
@[simp] theorem engineReset_dst (s : State) : (engineReset s).dst = 0#32 := rfl
@[simp] theorem engineReset_len (s : State) : (engineReset s).len = 0#32 := rfl
@[simp] theorem engineReset_keyaddr (s : State) : (engineReset s).keyaddr = 0#32 := rfl
@[simp] theorem engineReset_nonceaddr (s : State) : (engineReset s).nonceaddr = 0#32 := rfl
@[simp] theorem engineReset_ctrinit (s : State) : (engineReset s).ctrinit = 0#32 := rfl
@[simp] theorem engineReset_inReset (s : State) : (engineReset s).inReset = s.inReset := rfl
@[simp] theorem engineReset_mem (s : State) : (engineReset s).mem = s.mem := rfl
@[simp] theorem engineReset_plat (s : State) : (engineReset s).plat = s.plat := rfl
@[simp] theorem engineReset_bus (s : State) : (engineReset s).bus = s.bus := rfl
@[simp] theorem engineReset_rdata (s : State) : (engineReset s).rdata = s.rdata := rfl
@[simp] theorem engineReset_peerData (s : State) : (engineReset s).peerData = s.peerData := rfl
@[simp] theorem engineReset_raced (s : State) : (engineReset s).raced = s.raced := rfl
@[simp] theorem engineReset_draws (s : State) : (engineReset s).draws = s.draws := rfl

/-! ## The effects of ENCRYPT and KEYSTREAM -/

@[simp] theorem encryptEffect_stream (s : State) : (encryptEffect s).stream = (stateKeystream s s.len.toNat).2 := rfl
@[simp] theorem encryptEffect_initd (s : State) : (encryptEffect s).initd = s.initd := rfl
@[simp] theorem encryptEffect_err (s : State) : (encryptEffect s).err = s.err := rfl
@[simp] theorem encryptEffect_src (s : State) : (encryptEffect s).src = s.src := rfl
@[simp] theorem encryptEffect_dst (s : State) : (encryptEffect s).dst = s.dst := rfl
@[simp] theorem encryptEffect_len (s : State) : (encryptEffect s).len = s.len := rfl
@[simp] theorem encryptEffect_keyaddr (s : State) : (encryptEffect s).keyaddr = s.keyaddr := rfl
@[simp] theorem encryptEffect_nonceaddr (s : State) : (encryptEffect s).nonceaddr = s.nonceaddr := rfl
@[simp] theorem encryptEffect_ctrinit (s : State) : (encryptEffect s).ctrinit = s.ctrinit := rfl
@[simp] theorem encryptEffect_inReset (s : State) : (encryptEffect s).inReset = s.inReset := rfl
@[simp] theorem encryptEffect_mem (s : State) : (encryptEffect s).mem = s.mem.writeBytes s.dst.toNat (encryptBytes s) := rfl
@[simp] theorem encryptEffect_plat (s : State) : (encryptEffect s).plat = s.plat := rfl
@[simp] theorem encryptEffect_bus (s : State) : (encryptEffect s).bus = s.bus := rfl
@[simp] theorem encryptEffect_rdata (s : State) : (encryptEffect s).rdata = s.rdata := rfl
@[simp] theorem encryptEffect_peerData (s : State) : (encryptEffect s).peerData = s.peerData := rfl
@[simp] theorem encryptEffect_raced (s : State) : (encryptEffect s).raced = s.raced := rfl
@[simp] theorem encryptEffect_draws (s : State) : (encryptEffect s).draws = 
    if partialOverlap s.src.toNat s.dst.toNat s.len.toNat then s.draws + 1 else s.draws := rfl

@[simp] theorem keystreamEffect_stream (s : State) : (keystreamEffect s).stream = (stateKeystream s s.len.toNat).2 := rfl
@[simp] theorem keystreamEffect_initd (s : State) : (keystreamEffect s).initd = s.initd := rfl
@[simp] theorem keystreamEffect_err (s : State) : (keystreamEffect s).err = s.err := rfl
@[simp] theorem keystreamEffect_src (s : State) : (keystreamEffect s).src = s.src := rfl
@[simp] theorem keystreamEffect_dst (s : State) : (keystreamEffect s).dst = s.dst := rfl
@[simp] theorem keystreamEffect_len (s : State) : (keystreamEffect s).len = s.len := rfl
@[simp] theorem keystreamEffect_keyaddr (s : State) : (keystreamEffect s).keyaddr = s.keyaddr := rfl
@[simp] theorem keystreamEffect_nonceaddr (s : State) : (keystreamEffect s).nonceaddr = s.nonceaddr := rfl
@[simp] theorem keystreamEffect_ctrinit (s : State) : (keystreamEffect s).ctrinit = s.ctrinit := rfl
@[simp] theorem keystreamEffect_inReset (s : State) : (keystreamEffect s).inReset = s.inReset := rfl
@[simp] theorem keystreamEffect_mem (s : State) : (keystreamEffect s).mem = s.mem.writeBytes s.dst.toNat (stateKeystream s s.len.toNat).1 := rfl
@[simp] theorem keystreamEffect_plat (s : State) : (keystreamEffect s).plat = s.plat := rfl
@[simp] theorem keystreamEffect_bus (s : State) : (keystreamEffect s).bus = s.bus := rfl
@[simp] theorem keystreamEffect_rdata (s : State) : (keystreamEffect s).rdata = s.rdata := rfl
@[simp] theorem keystreamEffect_peerData (s : State) : (keystreamEffect s).peerData = s.peerData := rfl
@[simp] theorem keystreamEffect_raced (s : State) : (keystreamEffect s).raced = s.raced := rfl
@[simp] theorem keystreamEffect_draws (s : State) : (keystreamEffect s).draws = s.draws := rfl

/-! ## The stream that INIT begins -/

@[simp] theorem initStream_S (n : Nat) (s : State) : (initStream n s).S = initWords (layoutOf n) (keyBytes s) (nonceBytes s n) s.ctrinit := rfl
@[simp] theorem initStream_layout (n : Nat) (s : State) : (initStream n s).layout = layoutOf n := rfl
@[simp] theorem initStream_wrap (n : Nat) (s : State) : (initStream n s).wrap = false := rfl
@[simp] theorem initStream_kbuf (n : Nat) (s : State) : (initStream n s).kbuf = Vector.replicate 64 0#8 := rfl
@[simp] theorem initStream_kpos (n : Nat) (s : State) : (initStream n s).kpos = 0#6 := rfl

/-! ## The settling of a contended command -/

@[simp] theorem settleRace_stream (b : Option (Nat × Nat)) (ws : List Host.Cell) (rs : List Nat) (s t : State) : (settleRace b ws rs s t).stream = t.stream := rfl
@[simp] theorem settleRace_initd (b : Option (Nat × Nat)) (ws : List Host.Cell) (rs : List Nat) (s t : State) : (settleRace b ws rs s t).initd = t.initd := rfl
@[simp] theorem settleRace_err (b : Option (Nat × Nat)) (ws : List Host.Cell) (rs : List Nat) (s t : State) : (settleRace b ws rs s t).err = t.err := rfl
@[simp] theorem settleRace_src (b : Option (Nat × Nat)) (ws : List Host.Cell) (rs : List Nat) (s t : State) : (settleRace b ws rs s t).src = t.src := rfl
@[simp] theorem settleRace_dst (b : Option (Nat × Nat)) (ws : List Host.Cell) (rs : List Nat) (s t : State) : (settleRace b ws rs s t).dst = t.dst := rfl
@[simp] theorem settleRace_len (b : Option (Nat × Nat)) (ws : List Host.Cell) (rs : List Nat) (s t : State) : (settleRace b ws rs s t).len = t.len := rfl
@[simp] theorem settleRace_keyaddr (b : Option (Nat × Nat)) (ws : List Host.Cell) (rs : List Nat) (s t : State) : (settleRace b ws rs s t).keyaddr = t.keyaddr := rfl
@[simp] theorem settleRace_nonceaddr (b : Option (Nat × Nat)) (ws : List Host.Cell) (rs : List Nat) (s t : State) : (settleRace b ws rs s t).nonceaddr = t.nonceaddr := rfl
@[simp] theorem settleRace_ctrinit (b : Option (Nat × Nat)) (ws : List Host.Cell) (rs : List Nat) (s t : State) : (settleRace b ws rs s t).ctrinit = t.ctrinit := rfl
@[simp] theorem settleRace_inReset (b : Option (Nat × Nat)) (ws : List Host.Cell) (rs : List Nat) (s t : State) : (settleRace b ws rs s t).inReset = t.inReset := rfl
@[simp] theorem settleRace_mem (b : Option (Nat × Nat)) (ws : List Host.Cell) (rs : List Nat) (s t : State) : (settleRace b ws rs s t).mem = 
    t.mem.writeCells (landedWrites b t.draws 0 ws) := rfl
@[simp] theorem settleRace_plat (b : Option (Nat × Nat)) (ws : List Host.Cell) (rs : List Nat) (s t : State) : (settleRace b ws rs s t).plat = t.plat := rfl
@[simp] theorem settleRace_bus (b : Option (Nat × Nat)) (ws : List Host.Cell) (rs : List Nat) (s t : State) : (settleRace b ws rs s t).bus = t.bus := rfl
@[simp] theorem settleRace_rdata (b : Option (Nat × Nat)) (ws : List Host.Cell) (rs : List Nat) (s t : State) : (settleRace b ws rs s t).rdata = t.rdata := rfl
@[simp] theorem settleRace_peerData (b : Option (Nat × Nat)) (ws : List Host.Cell) (rs : List Nat) (s t : State) : (settleRace b ws rs s t).peerData = 
    peerReads b (ws.map (·.1)) t.draws s.mem t.mem 0 rs := rfl
@[simp] theorem settleRace_raced (b : Option (Nat × Nat)) (ws : List Host.Cell) (rs : List Nat) (s t : State) : (settleRace b ws rs s t).raced = [] := rfl
@[simp] theorem settleRace_draws (b : Option (Nat × Nat)) (ws : List Host.Cell) (rs : List Nat) (s t : State) : (settleRace b ws rs s t).draws = t.draws + 1 := rfl

/-! ## The command word put on the bus -/

@[simp] theorem State.withFetchWord_stream (s : State) (nbits w : Nat) : (s.withFetchWord nbits w).stream = s.stream := rfl
@[simp] theorem State.withFetchWord_initd (s : State) (nbits w : Nat) : (s.withFetchWord nbits w).initd = s.initd := rfl
@[simp] theorem State.withFetchWord_err (s : State) (nbits w : Nat) : (s.withFetchWord nbits w).err = s.err := rfl
@[simp] theorem State.withFetchWord_src (s : State) (nbits w : Nat) : (s.withFetchWord nbits w).src = s.src := rfl
@[simp] theorem State.withFetchWord_dst (s : State) (nbits w : Nat) : (s.withFetchWord nbits w).dst = s.dst := rfl
@[simp] theorem State.withFetchWord_len (s : State) (nbits w : Nat) : (s.withFetchWord nbits w).len = s.len := rfl
@[simp] theorem State.withFetchWord_keyaddr (s : State) (nbits w : Nat) : (s.withFetchWord nbits w).keyaddr = s.keyaddr := rfl
@[simp] theorem State.withFetchWord_nonceaddr (s : State) (nbits w : Nat) : (s.withFetchWord nbits w).nonceaddr = s.nonceaddr := rfl
@[simp] theorem State.withFetchWord_ctrinit (s : State) (nbits w : Nat) : (s.withFetchWord nbits w).ctrinit = s.ctrinit := rfl
@[simp] theorem State.withFetchWord_inReset (s : State) (nbits w : Nat) : (s.withFetchWord nbits w).inReset = false := rfl
@[simp] theorem State.withFetchWord_mem (s : State) (nbits w : Nat) : (s.withFetchWord nbits w).mem = s.mem := rfl
@[simp] theorem State.withFetchWord_plat (s : State) (nbits w : Nat) : (s.withFetchWord nbits w).plat = s.plat := rfl
@[simp] theorem State.withFetchWord_bus (s : State) (nbits w : Nat) : (s.withFetchWord nbits w).bus = 
    commandTxn s.plat (tableWord nbits w) :: s.bus := rfl
@[simp] theorem State.withFetchWord_rdata (s : State) (nbits w : Nat) : (s.withFetchWord nbits w).rdata = s.rdata := rfl
@[simp] theorem State.withFetchWord_peerData (s : State) (nbits w : Nat) : (s.withFetchWord nbits w).peerData = s.peerData := rfl
@[simp] theorem State.withFetchWord_raced (s : State) (nbits w : Nat) : (s.withFetchWord nbits w).raced = s.raced := rfl
@[simp] theorem State.withFetchWord_draws (s : State) (nbits w : Nat) : (s.withFetchWord nbits w).draws = s.draws := rfl

/-! ## One transaction on the bus -/

@[simp] theorem withTxn_stream (s : State) (x : Txn) : (withTxn s x).stream = s.stream := rfl
@[simp] theorem withTxn_initd (s : State) (x : Txn) : (withTxn s x).initd = s.initd := rfl
@[simp] theorem withTxn_err (s : State) (x : Txn) : (withTxn s x).err = s.err := rfl
@[simp] theorem withTxn_src (s : State) (x : Txn) : (withTxn s x).src = s.src := rfl
@[simp] theorem withTxn_dst (s : State) (x : Txn) : (withTxn s x).dst = s.dst := rfl
@[simp] theorem withTxn_len (s : State) (x : Txn) : (withTxn s x).len = s.len := rfl
@[simp] theorem withTxn_keyaddr (s : State) (x : Txn) : (withTxn s x).keyaddr = s.keyaddr := rfl
@[simp] theorem withTxn_nonceaddr (s : State) (x : Txn) : (withTxn s x).nonceaddr = s.nonceaddr := rfl
@[simp] theorem withTxn_ctrinit (s : State) (x : Txn) : (withTxn s x).ctrinit = s.ctrinit := rfl
@[simp] theorem withTxn_inReset (s : State) (x : Txn) : (withTxn s x).inReset = s.inReset := rfl
@[simp] theorem withTxn_mem (s : State) (x : Txn) : (withTxn s x).mem = s.mem := rfl
@[simp] theorem withTxn_plat (s : State) (x : Txn) : (withTxn s x).plat = s.plat := rfl
@[simp] theorem withTxn_bus (s : State) (x : Txn) : (withTxn s x).bus = [x] := rfl
@[simp] theorem withTxn_rdata (s : State) (x : Txn) : (withTxn s x).rdata = s.rdata := rfl
@[simp] theorem withTxn_peerData (s : State) (x : Txn) : (withTxn s x).peerData = s.peerData := rfl
@[simp] theorem withTxn_raced (s : State) (x : Txn) : (withTxn s x).raced = s.raced := rfl
@[simp] theorem withTxn_draws (s : State) (x : Txn) : (withTxn s x).draws = s.draws := rfl

end Sys2Proof.Machine
end

