-- ==== Sys2Proof/Laws/Keystream.lean ====
section
/-! SUPPORT. The counter and the keystream sequencer: what one increment, one byte and `n` bytes do to a stream. -/

namespace Sys2Proof.Machine

/-! ## One counter increment -/

/-- What one increment does (R150), as one formula for each field. -/
theorem counterIncrement_eq (carry : Bool) (st : Stream) :
    counterIncrement carry st =
      { st with
        wrap := st.wrap || decide (st.S[12] + 1#32 = 0#32)
        S := if st.S[12] + 1#32 = 0#32 ∧ (st.layout = .ext ∨ carry = true)
          then (st.S.set 12 (st.S[12] + 1#32)).set 13 (st.S[13] + 1#32)
          else st.S.set 12 (st.S[12] + 1#32) } := by
  unfold counterIncrement
  by_cases h : st.S[12] + 1#32 = 0#32
  · by_cases hc : st.layout = .ext ∨ carry = true <;> simp [h, hc]
  · simp [h]

@[simp] theorem counterIncrement_layout (carry : Bool) (st : Stream) :
    (counterIncrement carry st).layout = st.layout := by rw [counterIncrement_eq]

@[simp] theorem counterIncrement_kbuf (carry : Bool) (st : Stream) :
    (counterIncrement carry st).kbuf = st.kbuf := by rw [counterIncrement_eq]

@[simp] theorem counterIncrement_kpos (carry : Bool) (st : Stream) :
    (counterIncrement carry st).kpos = st.kpos := by rw [counterIncrement_eq]

theorem counterIncrement_wrap (carry : Bool) (st : Stream) :
    (counterIncrement carry st).wrap = (st.wrap || decide (st.S[12] + 1#32 = 0#32)) := by rw [counterIncrement_eq]

theorem counterIncrement_low (carry : Bool) (st : Stream) :
    (counterIncrement carry st).S[12] = st.S[12] + 1#32 := by
  rw [counterIncrement_eq]
  dsimp only
  split <;> simp

theorem counterIncrement_high (carry : Bool) (st : Stream) :
    (counterIncrement carry st).S[13] =
      if st.S[12] + 1#32 = 0#32 ∧ (st.layout = .ext ∨ carry = true) then st.S[13] + 1#32 else st.S[13] := by
  rw [counterIncrement_eq]
  dsimp only
  split <;> simp

/-- No other word changes. -/
theorem counterIncrement_other (carry : Bool) (st : Stream) (i : Nat) (hi : i < 16) (h12 : i ≠ 12) (h13 : i ≠ 13) :
    (counterIncrement carry st).S[i] = st.S[i] := by
  rw [counterIncrement_eq]
  dsimp only
  split <;> simp [Ne.symm h12, Ne.symm h13]

/-- Word 12 wraps exactly from its greatest value. -/
theorem add_one_eq_zero_iff (x : Word) : x + 1#32 = 0#32 ↔ x.toNat = 2 ^ 32 - 1 := by
  constructor
  · intro h
    have := congrArg BitVec.toNat h
    simp at this
    omega
  · intro h
    apply BitVec.eq_of_toNat_eq
    simp [h]

/-! ## Several counter increments -/

theorem advance_succ (carry : Bool) (n : Nat) (st : Stream) :
    advance carry (n + 1) st = advance carry n (counterIncrement carry st) := rfl

@[simp] theorem advance_layout (carry : Bool) (n : Nat) (st : Stream) : (advance carry n st).layout = st.layout := by
  induction n generalizing st with
  | zero => rfl
  | succ n ih => rw [advance_succ, ih]; simp

theorem advance_low (carry : Bool) (n : Nat) (st : Stream) :
    (advance carry n st).S[12].toNat = (st.S[12].toNat + n) % 2 ^ 32 := by
  induction n generalizing st with
  | zero => have := st.S[12].isLt; simp only [advance]; omega
  | succ n ih => rw [advance_succ, ih, counterIncrement_low]; simp; omega

theorem advance_other (carry : Bool) (n : Nat) (st : Stream) (i : Nat) (hi : i < 16) (h12 : i ≠ 12) (h13 : i ≠ 13) :
    (advance carry n st).S[i] = st.S[i] := by
  induction n generalizing st with
  | zero => rfl
  | succ n ih => rw [advance_succ, ih, counterIncrement_other carry st i hi h12 h13]

/-! ## A refill -/

@[simp] theorem refill_layout (carry : Bool) (st : Stream) : (refill carry st).layout = st.layout := by simp [refill]
@[simp] theorem refill_kbuf (carry : Bool) (st : Stream) : (refill carry st).kbuf = block st.S := by simp [refill]
@[simp] theorem refill_kpos (carry : Bool) (st : Stream) : (refill carry st).kpos = st.kpos := by simp [refill]

@[simp] theorem refill_S (carry : Bool) (st : Stream) : (refill carry st).S = (counterIncrement carry st).S := by
  simp [refill, counterIncrement_eq]
@[simp] theorem refill_wrap (carry : Bool) (st : Stream) : (refill carry st).wrap = (counterIncrement carry st).wrap := by
  simp [refill, counterIncrement_eq]

theorem refill_eq (carry : Bool) (st : Stream) :
    refill carry st = { counterIncrement carry st with kbuf := block st.S } := by
  simp only [refill, counterIncrement_eq]

/-! ## One keystream byte -/

theorem nextKeystreamByte_fresh {carry : Bool} {st : Stream} (h : st.kpos = 0#6) :
    nextKeystreamByte carry st = ((block st.S)[0], { refill carry st with kpos := 1#6 }) := by
  simp [nextKeystreamByte, h]

theorem nextKeystreamByte_buffered {carry : Bool} {st : Stream} (h : st.kpos ≠ 0#6) :
    nextKeystreamByte carry st = (st.kbuf[st.kpos.toNat]'(st.kpos.isLt), { st with kpos := st.kpos + 1#6 }) := by
  simp [nextKeystreamByte, h]

@[simp] theorem nextKeystreamByte_layout (carry : Bool) (st : Stream) :
    (nextKeystreamByte carry st).2.layout = st.layout := by
  by_cases h : st.kpos = 0#6
  · simp [nextKeystreamByte_fresh h]
  · simp [nextKeystreamByte_buffered h]

@[simp] theorem nextKeystreamByte_kpos (carry : Bool) (st : Stream) :
    (nextKeystreamByte carry st).2.kpos = st.kpos + 1#6 := by
  by_cases h : st.kpos = 0#6
  · simp [nextKeystreamByte_fresh h, h]
  · simp [nextKeystreamByte_buffered h]

/-! ## Several keystream bytes -/

@[simp] theorem takeKeystream_zero (carry : Bool) (st : Stream) : takeKeystream carry 0 st = ([], st) := rfl

theorem takeKeystream_succ (carry : Bool) (n : Nat) (st : Stream) :
    takeKeystream carry (n + 1) st =
      ((nextKeystreamByte carry st).1 :: (takeKeystream carry n (nextKeystreamByte carry st).2).1,
        (takeKeystream carry n (nextKeystreamByte carry st).2).2) := rfl

@[simp] theorem takeKeystream_length (carry : Bool) (n : Nat) (st : Stream) :
    (takeKeystream carry n st).1.length = n := by
  induction n generalizing st with
  | zero => rfl
  | succ n ih => simp [takeKeystream_succ, ih]

/-- Taking `m + n` bytes is taking `m` bytes and then `n`. -/
theorem takeKeystream_add (carry : Bool) (m n : Nat) (st : Stream) :
    takeKeystream carry (m + n) st =
      ((takeKeystream carry m st).1 ++ (takeKeystream carry n (takeKeystream carry m st).2).1,
        (takeKeystream carry n (takeKeystream carry m st).2).2) := by
  induction m generalizing st with
  | zero => simp
  | succ m ih => rw [Nat.succ_add, takeKeystream_succ, takeKeystream_succ, ih]; simp

@[simp] theorem takeKeystream_layout (carry : Bool) (n : Nat) (st : Stream) :
    (takeKeystream carry n st).2.layout = st.layout := by
  induction n generalizing st with
  | zero => rfl
  | succ n ih => simp [takeKeystream_succ, ih]

/-- `S` other than words 12 and 13 never changes as bytes are taken (R20). -/
theorem nextKeystreamByte_other (carry : Bool) (st : Stream) (i : Nat) (hi : i < 16) (h12 : i ≠ 12) (h13 : i ≠ 13) :
    (nextKeystreamByte carry st).2.S[i] = st.S[i] := by
  by_cases h : st.kpos = 0#6
  · simp [nextKeystreamByte_fresh h, refill_eq, counterIncrement_other carry st i hi h12 h13]
  · simp [nextKeystreamByte_buffered h]

theorem takeKeystream_other (carry : Bool) (n : Nat) (st : Stream) (i : Nat) (hi : i < 16) (h12 : i ≠ 12)
    (h13 : i ≠ 13) : (takeKeystream carry n st).2.S[i] = st.S[i] := by
  induction n generalizing st with
  | zero => rfl
  | succ n ih => simp [takeKeystream_succ, ih, nextKeystreamByte_other carry st i hi h12 h13]

/-- `WRAP` is sticky (R28). -/
theorem nextKeystreamByte_wrap (carry : Bool) {st : Stream} (h : st.wrap = true) :
    (nextKeystreamByte carry st).2.wrap = true := by
  by_cases hk : st.kpos = 0#6
  · simp [nextKeystreamByte_fresh hk, refill_eq, counterIncrement_wrap, h]
  · simp [nextKeystreamByte_buffered hk, h]

theorem takeKeystream_wrap (carry : Bool) (n : Nat) {st : Stream} (h : st.wrap = true) :
    (takeKeystream carry n st).2.wrap = true := by
  induction n generalizing st with
  | zero => exact h
  | succ n ih => exact ih (nextKeystreamByte_wrap carry h)

/-- A property of streams that one byte keeps is kept by any number of bytes. -/
theorem takeKeystream_keeps (carry : Bool) (P : Stream → Prop) (h : ∀ st, P st → P (nextKeystreamByte carry st).2)
    (n : Nat) {st : Stream} (hst : P st) : P (takeKeystream carry n st).2 := by
  induction n generalizing st with
  | zero => exact hst
  | succ n ih => exact ih (h st hst)

end Sys2Proof.Machine
end

