-- ==== Sys2Proof/Laws/Memory.lean ====
section
/-! SUPPORT. Shared memory: a read after a write, what a write leaves alone, and that every memory operation keeps the
canonical form and the bound. -/

namespace Sys2Proof.Machine

/-! ## Reading -/

@[simp] theorem Memory.read_nil (a : Nat) : Memory.read [] a = Memory.unlisted a := rfl

theorem Memory.read_cons (b : Nat) (v : Byte) (m : Memory) (a : Nat) :
    Memory.read ((b, v) :: m) a = if a = b then v else Memory.read m a := rfl

/-- An address below every listed one reads as an unlisted address. -/
theorem Memory.read_below {m : Memory} {a : Nat} (h : ∀ c ∈ m, a < c.1) : m.read a = Memory.unlisted a := by
  induction m with
  | nil => rfl
  | cons c m ih =>
    have hc := h c (by simp)
    rw [Memory.read_cons, if_neg (by omega)]
    exact ih fun d hd => h d (by simp [hd])

/-! ## The canonical form -/

theorem Memory.wf_nil : Memory.wf [] := by simp [Memory.wf]

theorem Memory.wf_cons {c : Host.Cell} {m : Memory} :
    Memory.wf (c :: m) ↔ (∀ d ∈ m, c.1 < d.1) ∧ c.2 ≠ Memory.unlisted c.1 ∧ Memory.wf m := by
  simp only [Memory.wf, List.pairwise_cons, List.mem_cons, forall_eq_or_imp]
  tauto

/-- Every address a write lists is the written one or was listed before. -/
theorem Memory.mem_write {m : Memory} {a : Nat} {v : Byte} {c : Host.Cell} (h : c ∈ m.write a v) :
    c.1 = a ∨ c ∈ m := by
  induction m with
  | nil =>
    simp only [Memory.write] at h
    split at h
    · simp at h
    · simp only [List.mem_singleton] at h; exact .inl (by rw [h])
  | cons d m ih =>
    obtain ⟨b, w⟩ := d
    simp only [Memory.write] at h
    split at h
    · split at h
      · exact .inr h
      · rcases List.mem_cons.1 h with rfl | h
        · exact .inl rfl
        · exact .inr h
    · split at h
      · split at h
        · exact .inr (List.mem_cons_of_mem _ h)
        · rcases List.mem_cons.1 h with rfl | h
          · exact .inl rfl
          · exact .inr (List.mem_cons_of_mem _ h)
      · rcases List.mem_cons.1 h with rfl | h
        · exact .inr (by simp)
        · rcases ih h with h | h
          · exact .inl h
          · exact .inr (List.mem_cons_of_mem _ h)

theorem Memory.wf_write {m : Memory} (h : m.wf) (a : Nat) (v : Byte) : (m.write a v).wf := by
  induction m with
  | nil =>
    simp only [Memory.write]
    split
    · exact Memory.wf_nil
    · rename_i hv
      exact Memory.wf_cons.2 ⟨by simp, hv, Memory.wf_nil⟩
  | cons d m ih =>
    obtain ⟨b, w⟩ := d
    obtain ⟨hlt, hne, hm⟩ := Memory.wf_cons.1 h
    simp only [Memory.write]
    split
    · rename_i hab
      split
      · exact h
      · rename_i hv
        refine Memory.wf_cons.2 ⟨fun e he => ?_, hv, h⟩
        rcases List.mem_cons.1 he with rfl | he
        · exact hab
        · exact lt_trans hab (hlt e he)
    · split
      · rename_i hab
        split
        · exact hm
        · rename_i hv
          exact Memory.wf_cons.2 ⟨fun e he => hab ▸ hlt e he, hv, hm⟩
      · rename_i hab hne'
        refine Memory.wf_cons.2 ⟨fun e he => ?_, hne, ih hm⟩
        rcases Memory.mem_write he with he | he
        · have : b < a := by omega
          simpa [he] using this
        · exact hlt e he

/-! ## A read after a write -/

theorem Memory.read_write {m : Memory} (h : m.wf) (a b : Nat) (v : Byte) :
    (m.write a v).read b = if b = a then v else m.read b := by
  induction m with
  | nil =>
    simp only [Memory.write]
    split
    · rename_i hv
      split
      · rename_i hb; simp [hb, hv]
      · rfl
    · rfl
  | cons d m ih =>
    obtain ⟨c, w⟩ := d
    obtain ⟨hlt, hne, hm⟩ := Memory.wf_cons.1 h
    simp only [Memory.write]
    split
    · rename_i hac
      split
      · rename_i hv
        split
        · rename_i hb
          subst hb
          rw [Memory.read_cons, if_neg (by omega), Memory.read_below, hv]
          exact fun e he => lt_trans hac (hlt e he)
        · rfl
      · rfl
    · split
      · rename_i hac
        subst hac
        split
        · rename_i hv
          split
          · rename_i hb
            subst hb
            rw [Memory.read_below hlt, hv]
          · rename_i hb
            rw [Memory.read_cons, if_neg hb]
        · rw [Memory.read_cons, Memory.read_cons]
          split <;> rfl
      · rename_i hac
        rw [Memory.read_cons, Memory.read_cons, ih hm]
        split
        · rename_i hb
          rw [if_neg (by omega)]
        · rfl

/-! ## Several bytes -/

theorem Memory.wf_writeBytes {m : Memory} (h : m.wf) (a : Nat) (bs : List Byte) : (m.writeBytes a bs).wf := by
  induction bs generalizing m a with
  | nil => exact h
  | cons b bs ih => exact ih (Memory.wf_write h a b) (a + 1)

theorem Memory.wf_writeCells {m : Memory} (h : m.wf) (cs : List Host.Cell) : (m.writeCells cs).wf := by
  induction cs generalizing m with
  | nil => exact h
  | cons c cs ih => exact ih (Memory.wf_write h c.1 c.2)

/-- A byte outside the written range reads as before. -/
theorem Memory.read_writeBytes_outside {m : Memory} (h : m.wf) {a b : Nat} {bs : List Byte}
    (hb : b < a ∨ a + bs.length ≤ b) : (m.writeBytes a bs).read b = m.read b := by
  induction bs generalizing m a with
  | nil => rfl
  | cons v bs ih =>
    simp only [List.length_cons] at hb
    rw [Memory.writeBytes, ih (Memory.wf_write h a v) (by omega), Memory.read_write h, if_neg (by omega)]

/-- The `i`-th written byte reads back. -/
theorem Memory.read_writeBytes_inside {m : Memory} (h : m.wf) {a i : Nat} {bs : List Byte} (hi : i < bs.length) :
    (m.writeBytes a bs).read (a + i) = bs[i] := by
  induction bs generalizing m a i with
  | nil => simp at hi
  | cons v bs ih =>
    rw [Memory.writeBytes]
    cases i with
    | zero =>
      have := Memory.read_writeBytes_outside (Memory.wf_write h a v) (a := a + 1) (b := a) (bs := bs) (.inl (by omega))
      simpa [Memory.read_write h] using this
    | succ i =>
      have := ih (Memory.wf_write h a v) (a := a + 1) (i := i) (by simpa using hi)
      rw [show a + (i + 1) = a + 1 + i by omega, this]
      rfl

/-- An address that none of the cells has reads as before. -/
theorem Memory.read_writeCells_outside {m : Memory} (h : m.wf) {b : Nat} {cs : List Host.Cell}
    (hb : ∀ c ∈ cs, c.1 ≠ b) : (m.writeCells cs).read b = m.read b := by
  induction cs generalizing m with
  | nil => rfl
  | cons c cs ih =>
    have hc := hb c (by simp)
    rw [Memory.writeCells, ih (Memory.wf_write h c.1 c.2) fun d hd => hb d (by simp [hd]), Memory.read_write h,
      if_neg (Ne.symm hc)]

/-- Writing one sequence of bytes after another is writing them joined. -/
theorem Memory.writeBytes_append (m : Memory) (a : Nat) (xs ys : List Byte) :
    m.writeBytes a (xs ++ ys) = (m.writeBytes a xs).writeBytes (a + xs.length) ys := by
  induction xs generalizing m a with
  | nil => rfl
  | cons x xs ih =>
    simp only [List.cons_append, Memory.writeBytes, List.length_cons]
    rw [ih, show a + 1 + xs.length = a + (xs.length + 1) by omega]

/-! ## The bound -/

theorem Memory.bounded_write {m : Memory} {N a : Nat} {v : Byte} (h : ∀ c ∈ m, c.1 < N) (ha : a < N) :
    ∀ c ∈ m.write a v, c.1 < N := by
  intro c hc
  rcases Memory.mem_write hc with hc | hc
  · exact hc ▸ ha
  · exact h c hc

theorem Memory.bounded_writeBytes {m : Memory} {N a : Nat} {bs : List Byte} (h : ∀ c ∈ m, c.1 < N)
    (ha : a + bs.length ≤ N) : ∀ c ∈ m.writeBytes a bs, c.1 < N := by
  induction bs generalizing m a with
  | nil => exact h
  | cons b bs ih =>
    simp only [List.length_cons] at ha
    exact ih (Memory.bounded_write h (by omega)) (by omega)

theorem Memory.bounded_writeCells {m : Memory} {N : Nat} {cs : List Host.Cell} (h : ∀ c ∈ m, c.1 < N)
    (hc : ∀ c ∈ cs, c.1 < N) : ∀ c ∈ m.writeCells cs, c.1 < N := by
  induction cs generalizing m with
  | nil => exact h
  | cons c cs ih => exact ih (Memory.bounded_write h (hc c (by simp))) fun d hd => hc d (by simp [hd])

/-- Two canonical memories that read the same at every address are equal. -/
theorem Memory.ext_of_wf {m m' : Memory} (h : m.wf) (h' : m'.wf) (he : ∀ a, m.read a = m'.read a) : m = m' := by
  induction m generalizing m' with
  | nil =>
    cases m' with
    | nil => rfl
    | cons d m' =>
      obtain ⟨-, hne, -⟩ := Memory.wf_cons.1 h'
      have := he d.1
      rw [Memory.read_nil, show (d :: m') = (d.1, d.2) :: m' from rfl, Memory.read_cons, if_pos rfl] at this
      exact absurd this.symm hne
  | cons c m ih =>
    obtain ⟨hlt, hne, hm⟩ := Memory.wf_cons.1 h
    cases m' with
    | nil =>
      have := he c.1
      rw [Memory.read_nil, show (c :: m) = (c.1, c.2) :: m from rfl, Memory.read_cons, if_pos rfl] at this
      exact absurd this hne
    | cons d m' =>
      obtain ⟨hlt', hne', hm'⟩ := Memory.wf_cons.1 h'
      obtain ⟨a, v⟩ := c
      obtain ⟨b, w⟩ := d
      simp only [Memory.read_cons] at he
      have hab : a = b := by
        rcases lt_trichotomy a b with hab | hab | hab
        · have := he a
          rw [if_pos rfl, if_neg (by omega), Memory.read_below fun e h => lt_trans hab (hlt' e h)] at this
          exact absurd this hne
        · exact hab
        · have := he b
          rw [if_pos rfl, if_neg (by omega), Memory.read_below fun e h => lt_trans hab (hlt e h)] at this
          exact absurd this.symm hne'
      subst hab
      have hvw : v = w := by simpa using he a
      subst hvw
      congr 1
      refine ih hm hm' fun x => ?_
      by_cases hx : x = a
      · subst hx
        rw [Memory.read_below hlt, Memory.read_below hlt']
      · simpa [hx] using he x

end Sys2Proof.Machine
end

