-- ==== Sys2Proof/Laws/Exec.lean ====
section
/-! SUPPORT. What a command can do, said once: each meaning either raises an error, refuses a buffer over memory with side
effects, or has its effect. -/

namespace Sys2Proof.Machine

/-! ## Engine reads -/

@[simp] theorem engineReads_length (s : State) (k a n : Nat) : (engineReads s k a n).length = n := by
  induction n generalizing k a with
  | zero => rfl
  | succ n ih => simp [engineReads, ih]

theorem engineReads_getElem (s : State) (k a n i : Nat) (hi : i < (engineReads s k a n).length) :
    (engineReads s k a n)[i] = engineRead s (k + i) (a + i) := by
  induction n generalizing k a i with
  | zero => simp [engineReads] at hi
  | succ n ih =>
    cases i with
    | zero => rfl
    | succ i =>
      have hi' : i < (engineReads s (k + 1) (a + 1) n).length := by simpa [engineReads] using hi
      simp only [engineReads, List.getElem_cons_succ]
      rw [ih (k + 1) (a + 1) i hi']
      congr 1 <;> omega

/-- An engine read of an address no other master writes is the byte in memory (R53). -/
theorem engineRead_plain {s : State} {k a : Nat} (h : a ∉ s.raced) : engineRead s k a = s.mem.read a := if_neg h

/-- Engine reads see nothing but memory, the other masters' addresses and the draw counter. -/
theorem engineReads_congr {s s' : State} (hm : s.mem = s'.mem) (hr : s.raced = s'.raced) (hd : s.draws = s'.draws)
    (k a n : Nat) : engineReads s k a n = engineReads s' k a n := by
  induction n generalizing k a with
  | zero => rfl
  | succ n ih => simp only [engineReads, engineRead, hm, hr, hd, ih]

@[simp] theorem freeBytes_length (use : FreeUse) (event n : Nat) : (Config.freeBytes use event n).length = n := by
  simp [Config.freeBytes]

theorem sourceBytes_length (s : State) : (sourceBytes s).length = s.len.toNat := by simp [sourceBytes]

@[simp] theorem encryptBytes_length (s : State) : (encryptBytes s).length = s.len.toNat := by
  unfold encryptBytes
  split
  · simp
  · simp [sourceBytes, stateKeystream]

/-! ## Buffers -/

theorem bufferValid_iff (p : Platform) (a n : Nat) : bufferValid p a n = true ↔ a + n ≤ p.memSize := by
  simp [bufferValid]

theorem rangesMeet_iff (a n b m : Nat) :
    rangesMeet a n b m = true ↔ a < b + m ∧ b < a + n ∧ 0 < n ∧ 0 < m := by
  simp only [rangesMeet, decide_eq_true_eq]
  omega

/-- `plainBuffer` is what the meanings check (R57). -/
theorem touchesDevice_eq_false (p : Platform) (a n : Nat) : touchesDevice p a n = false ↔ plainBuffer p a n := by
  simp only [touchesDevice, List.any_eq_false, plainBuffer, rangesMeet_iff]
  constructor
  · intro h x h1 h2 r hr h3
    exact h r hr (by omega)
  · intro h r hr hc
    exact h (max a r.base) (by omega) (by omega) r hr (by omega)

/-- Buffers that are the same or disjoint do not partially overlap (R58, R59). -/
theorem partialOverlap_eq_false {a b n : Nat} (h : sameOrDisjoint a b n) : partialOverlap a b n = false := by
  rw [← Bool.not_eq_true, partialOverlap, Bool.and_eq_true, bne_iff_ne, rangesMeet_iff]
  rcases h with h | h | h <;> omega

/-! ## The words of a new stream -/

theorem initWords_constants (l : Layout) (key nonce : List Byte) (ctr : Word) :
    constantsHold (initWords l key nonce ctr) := by
  cases l <;> exact ⟨rfl, rfl, rfl, rfl⟩

theorem initWords_key (l : Layout) (key nonce : List Byte) (ctr : Word) (i : Fin 8) :
    (initWords l key nonce ctr)[4 + i.val] = leWord key i.val := by
  cases l <;> revert i <;> intro i <;> fin_cases i <;> rfl

theorem initWords_counter (l : Layout) (key nonce : List Byte) (ctr : Word) :
    (initWords l key nonce ctr)[12] = ctr := by
  cases l <;> rfl

/-! ## The meanings, said once -/

/-- What `INIT` can do (R120, R207): one of its errors, a refusal, or a new stream. -/
theorem execInit_cases (klen nlen : Nat) (s : State) :
    (∃ e, e ≠ .ok ∧ execInit klen nlen s = .next { s with err := e }) ∨
    execInit klen nlen s = .refused .sideEffectMemory ∨
    (klen = 32 ∧ (nlen = 8 ∨ nlen = 12) ∧ s.keyaddr.toNat + 32 ≤ s.plat.memSize ∧
      s.nonceaddr.toNat + nlen ≤ s.plat.memSize ∧
      execInit klen nlen s = .next (complete { s with stream := initStream nlen s, initd := true })) := by
  unfold execInit raiseError
  split
  · exact .inl ⟨_, by decide, rfl⟩
  · split
    · exact .inl ⟨_, by decide, rfl⟩
    · split
      · exact .inl ⟨_, by decide, rfl⟩
      · split
        · exact .inr (.inl rfl)
        · rename_i h1 h2 h3 _
          simp only [Bool.or_eq_true, Bool.not_eq_true', not_or, Bool.not_eq_false, bufferValid_iff] at h3
          exact .inr (.inr ⟨by omega, by omega, h3.1, h3.2, rfl⟩)

/-- What `ENCRYPT` can do (R162, R207). -/
theorem execEncrypt_cases (s : State) :
    (∃ e, e ≠ .ok ∧ execEncrypt s = .next { s with err := e }) ∨
    (s.initd = true ∧ s.len = 0#32 ∧ execEncrypt s = .next (complete s)) ∨
    execEncrypt s = .refused .sideEffectMemory ∨
    (s.initd = true ∧ s.len ≠ 0#32 ∧ s.src.toNat + s.len.toNat ≤ s.plat.memSize ∧
      s.dst.toNat + s.len.toNat ≤ s.plat.memSize ∧ execEncrypt s = .next (complete (encryptEffect s))) := by
  unfold execEncrypt raiseError
  split
  · exact .inl ⟨_, by decide, rfl⟩
  · rename_i h0
    have h0 : s.initd = true := by simpa using h0
    split
    · rename_i hl; exact .inr (.inl ⟨h0, hl, rfl⟩)
    · split
      · exact .inl ⟨_, by decide, rfl⟩
      · split
        · exact .inr (.inr (.inl rfl))
        · rename_i hl h3 _
          simp only [Bool.or_eq_true, Bool.not_eq_true', not_or, Bool.not_eq_false, bufferValid_iff] at h3
          exact .inr (.inr (.inr ⟨h0, hl, h3.1, h3.2, rfl⟩))

/-- What `KEYSTREAM` can do (R163, R207). -/
theorem execKeystream_cases (s : State) :
    (∃ e, e ≠ .ok ∧ execKeystream s = .next { s with err := e }) ∨
    (s.initd = true ∧ s.len = 0#32 ∧ execKeystream s = .next (complete s)) ∨
    execKeystream s = .refused .sideEffectMemory ∨
    (s.initd = true ∧ s.len ≠ 0#32 ∧ s.dst.toNat + s.len.toNat ≤ s.plat.memSize ∧
      execKeystream s = .next (complete (keystreamEffect s))) := by
  unfold execKeystream raiseError
  split
  · exact .inl ⟨_, by decide, rfl⟩
  · rename_i h0
    have h0 : s.initd = true := by simpa using h0
    split
    · rename_i hl; exact .inr (.inl ⟨h0, hl, rfl⟩)
    · split
      · exact .inl ⟨_, by decide, rfl⟩
      · split
        · exact .inr (.inr (.inl rfl))
        · rename_i hl h3 _
          simp only [Bool.not_eq_true', Bool.not_eq_false, bufferValid_iff] at h3
          exact .inr (.inr (.inr ⟨h0, hl, h3, rfl⟩))

/-- The ways a command ends in a next state. -/
inductive ExecCase (i : Instr) (s : State) : State → Prop where
  | error (e : ErrCode) (he : e ≠ .ok) : ExecCase i s { s with err := e }
  | nop (hi : i = .nop) : ExecCase i s (complete s)
  | empty (hi : i = .encrypt ∨ i = .keystream) (h0 : s.initd = true) (hl : s.len = 0#32) : ExecCase i s (complete s)
  | init (n : Nat) (hi : i = .init 32 n) (hn : n = 8 ∨ n = 12) (hk : s.keyaddr.toNat + 32 ≤ s.plat.memSize)
      (hv : s.nonceaddr.toNat + n ≤ s.plat.memSize) :
      ExecCase i s (complete { s with stream := initStream n s, initd := true })
  | encrypt (hi : i = .encrypt) (h0 : s.initd = true) (hl : s.len ≠ 0#32) (hs : s.src.toNat + s.len.toNat ≤ s.plat.memSize)
      (hd : s.dst.toNat + s.len.toNat ≤ s.plat.memSize) : ExecCase i s (complete (encryptEffect s))
  | keystream (hi : i = .keystream) (h0 : s.initd = true) (hl : s.len ≠ 0#32)
      (hd : s.dst.toNat + s.len.toNat ≤ s.plat.memSize) : ExecCase i s (complete (keystreamEffect s))

/-- Every next state of a command comes about in one of those ways. -/
theorem exec_cases {i : Instr} {s t : State} (h : exec i s = .next t) : ExecCase i s t := by
  cases i with
  | nop =>
    have : complete s = t := by simpa [exec, execNop] using h
    exact this ▸ .nop rfl
  | init k n =>
    rcases execInit_cases k n s with ⟨e, he, h'⟩ | h' | ⟨hk, hn, h1, h2, h'⟩ <;>
      simp only [exec, h', Host.Outcome.next.injEq, reduceCtorEq] at h
    · exact h ▸ .error e he
    · subst hk; exact h ▸ .init n rfl hn h1 h2
  | encrypt =>
    rcases execEncrypt_cases s with ⟨e, he, h'⟩ | ⟨h0, hl, h'⟩ | h' | ⟨h0, hl, h1, h2, h'⟩ <;>
      simp only [exec, h', Host.Outcome.next.injEq, reduceCtorEq] at h
    · exact h ▸ .error e he
    · exact h ▸ .empty (.inl rfl) h0 hl
    · exact h ▸ .encrypt rfl h0 hl h1 h2
  | keystream =>
    rcases execKeystream_cases s with ⟨e, he, h'⟩ | ⟨h0, hl, h'⟩ | h' | ⟨h0, hl, h2, h'⟩ <;>
      simp only [exec, h', Host.Outcome.next.injEq, reduceCtorEq] at h
    · exact h ▸ .error e he
    · exact h ▸ .empty (.inr rfl) h0 hl
    · exact h ▸ .keystream rfl h0 hl h2

/-- A command never faults. -/
theorem exec_not_fault (i : Instr) (s : State) (f : Fault) : exec i s ≠ .fault f := by
  cases i with
  | nop => simp [exec, execNop]
  | init k n => rcases execInit_cases k n s with ⟨e, he, h'⟩ | h' | ⟨_, _, _, _, h'⟩ <;> simp [exec, h']
  | encrypt => rcases execEncrypt_cases s with ⟨e, he, h'⟩ | ⟨_, _, h'⟩ | h' | ⟨_, _, _, _, h'⟩ <;> simp [exec, h']
  | keystream => rcases execKeystream_cases s with ⟨e, he, h'⟩ | ⟨_, _, h'⟩ | h' | ⟨_, _, _, h'⟩ <;> simp [exec, h']

/-- The fields that no command writes (R32, R101; the platform and the bus are outside the engine). -/
structure SameSurroundings (s t : State) : Prop where
  src : t.src = s.src
  dst : t.dst = s.dst
  len : t.len = s.len
  keyaddr : t.keyaddr = s.keyaddr
  nonceaddr : t.nonceaddr = s.nonceaddr
  ctrinit : t.ctrinit = s.ctrinit
  inReset : t.inReset = s.inReset
  plat : t.plat = s.plat
  bus : t.bus = s.bus
  rdata : t.rdata = s.rdata
  peerData : t.peerData = s.peerData
  raced : t.raced = s.raced

/-- No command writes them. -/
theorem exec_surroundings {i : Instr} {s t : State} (h : exec i s = .next t) : SameSurroundings s t := by
  cases exec_cases h <;> constructor <;> rfl

end Sys2Proof.Machine
end

