-- ==== Sys2Proof/Laws/PerInstr.lean ====
section
/-! SUPPORT. Statements about every command as syntax, one lemma per constructor. -/

namespace Sys2Proof.Laws

/-- `OP` of a command (R72). -/
def opNumber : Instr → Nat
  | .nop => 0x0
  | .init _ _ => 0x1
  | .encrypt => 0x2
  | .keystream => 0x3

/-- `OpField`: the encoder's word of a command has the command's `OP` in bits 3:0 (R72) and, where the operands fit their fields,
0 in `RSV0` and `RSV1` (R71). -/
def OpField.Statement (i : Instr) : Prop :=
  i.wf = true →
    (encode i).toNat % 16 = opNumber i ∧
    (encode i).toNat / 16 % 16 = 0 ∧ (encode i).toNat / 2 ^ 24 = 0

theorem OpField.nop : OpField.Statement .nop := fun _ => by decide

theorem OpField.init (klen nlen : Nat) : OpField.Statement (.init klen nlen) := fun h => by
  simp only [Instr.wf, Bool.and_eq_true, decide_eq_true_eq] at h
  rw [encode_init_toNat h.1 h.2, opNumber]
  omega

theorem OpField.encrypt : OpField.Statement .encrypt := fun _ => by decide

theorem OpField.keystream : OpField.Statement .keystream := fun _ => by decide

end Sys2Proof.Laws
end

