-- ==== Sys2Proof/Laws/Permutation.lean ====
section
/-! SUPPORT. What one line of a quarter-round does to each word, and bits of words built from bytes. -/

namespace Sys2Proof.Machine

/-! ## The lines of a quarter-round -/

theorem addWord_getElem (X : Words) (a b i : Fin 16) : (addWord X a b)[i] = if i = a then X[a] + X[b] else X[i] := by
  simp only [addWord, Fin.getElem_fin, Vector.getElem_set, Fin.ext_iff, eq_comm]

theorem xorRotate_getElem (X : Words) (d a : Fin 16) (n : Nat) (i : Fin 16) :
    (xorRotate X d a n)[i] = if i = d then rotl32 (X[d] ^^^ X[a]) n else X[i] := by
  simp only [xorRotate, Fin.getElem_fin, Vector.getElem_set, Fin.ext_iff, eq_comm]

/-- Two word arrays with the same words are equal. -/
theorem Words.ext_fin {X Y : Words} (h : ∀ i : Fin 16, X[i] = Y[i]) : X = Y := Vector.ext fun i hi => h ⟨i, hi⟩

/-! ## Bits of a word built from bytes -/

/-- Which byte, and which bit of it, a bit of `LE32` is (R10). -/
theorem getLsbD_le32 (b0 b1 b2 b3 : Byte) {i : Nat} (hi : i < 32) :
    (le32 b0 b1 b2 b3).getLsbD i =
      if i < 8 then b0.getLsbD i
      else if i < 16 then b1.getLsbD (i - 8)
      else if i < 24 then b2.getLsbD (i - 16)
      else b3.getLsbD (i - 24) := by
  simp only [le32, BitVec.getLsbD_or, BitVec.getLsbD_shiftLeft, BitVec.truncate_eq_setWidth, BitVec.getLsbD_setWidth]
  rcases lt_or_ge i 8 with h | h
  · simp [h, show i < 16 by omega, show i < 24 by omega, hi]
  · have e0 := BitVec.getLsbD_of_ge b0 i h
    rcases lt_or_ge i 16 with h' | h'
    · simp [show ¬ i < 8 by omega, h', show i < 24 by omega, hi, show i - 8 < 32 by omega, e0]
    · have e1 := BitVec.getLsbD_of_ge b1 (i - 8) (by omega)
      rcases lt_or_ge i 24 with h'' | h''
      · simp [show ¬ i < 8 by omega, show ¬ i < 16 by omega, h'', hi, show i - 16 < 32 by omega, e0, e1]
      · have e2 := BitVec.getLsbD_of_ge b2 (i - 16) (by omega)
        simp [show ¬ i < 8 by omega, show ¬ i < 16 by omega, show ¬ i < 24 by omega, hi, show i - 24 < 32 by omega,
          e0, e1, e2]

theorem getLsbD_byteOf (w : Word) (j : Nat) {i : Nat} (hi : i < 8) : (byteOf w j).getLsbD i = w.getLsbD (8 * j + i) := by
  rw [byteOf, BitVec.getLsbD_extractLsb', decide_eq_true hi, Bool.true_and]

/-! ## The bytes of a block -/

theorem permute_eq (S : Words) : permute S = doubleRounds 10 S := by unfold permute; rfl

theorem serialize_getElem (Y : Words) (k : Nat) (hk : k < 64) :
    (serialize Y)[k] = byteOf (Y[k / 4]'(by omega)) (k % 4) := by simp [serialize]

theorem feedForward_getElem (S : Words) (i : Nat) (hi : i < 16) : (feedForward S)[i] = (permute S)[i] + S[i] := by
  simp [feedForward]

end Sys2Proof.Machine
end

