-- ==== Sys2Proof/Laws/Step.lean ====
section
/-! SUPPORT. What one step can do, said once: the transaction at the head of the bus is performed in one of a few ways. -/

namespace Sys2Proof.Machine

/-! ## Small lemmas of the bus -/

theorem windowOffset_base (p : Platform) {off : Nat} (h : off < 0x100) : windowOffset p (p.regBase + off) = some off := by
  simp [windowOffset, h]

theorem windowOffset_eq_some {p : Platform} {addr off : Nat} (h : windowOffset p addr = some off) :
    addr = p.regBase + off ∧ off < 0x100 := by
  unfold windowOffset at h
  split at h
  · simp only [Option.some.injEq] at h; omega
  · exact absurd h (by simp)

theorem regAt_regOffset (r : Reg) : regAt (regOffset r) = some r := by
  cases r with
  | s i => revert i; decide
  | _ => rfl

theorem regOffset_regAt {off : Nat} {r : Reg} (h : regAt off = some r) : regOffset r = off := by
  unfold regAt at h
  repeat' split at h
  all_goals (first | (cases h; simp only [regOffset]; omega) | cases h)

theorem regAt_reserved {off : Nat} (h : reservedOffset off) : regAt off = none := by
  obtain ⟨h1, h2⟩ := h
  unfold regAt
  repeat rw [if_neg (by omega)]
  rw [dif_neg (by omega)]

/-- `plainMemory` says that the byte exists and has no side effects. -/
theorem plainMemory_lt {p : Platform} {a : Nat} (h : plainMemory p a = true) : a < p.memSize := by
  simp only [plainMemory, Bool.and_eq_true, bufferValid_iff] at h
  omega

theorem badMemory_ne_next (p : Platform) (a : Nat) (t : State) : badMemory p a ≠ .next t := by
  unfold badMemory
  split <;> simp

theorem firstBad_eq_none {p : Platform} {as : List Nat} (h : firstBad p as = none) : ∀ a ∈ as, a < p.memSize := by
  intro a ha
  have := List.find?_eq_none.1 h a ha
  exact plainMemory_lt (by simpa using this)

/-- The address and length of an interrupted buffer lie in memory. -/
theorem interruptedBuffer_bound (w : Word) (s : State) :
    (interruptedBuffer w s).2 = 0 ∨ (interruptedBuffer w s).1 + (interruptedBuffer w s).2 ≤ s.plat.memSize := by
  unfold interruptedBuffer
  split
  · split
    · dsimp only; omega
    · exact .inl rfl
  · exact .inl rfl

/-! ## The landing of other masters' writes -/

theorem landedWrites_addresses (stored : Option (Nat × Nat)) (event k : Nat) (ws : List Host.Cell) :
    (landedWrites stored event k ws).map (·.1) = ws.map (·.1) := by
  induction ws generalizing k with
  | nil => rfl
  | cons c cs ih => simp [landedWrites, ih]

theorem peerReads_length (stored : Option (Nat × Nat)) (written : List Nat) (event k : Nat) (old new : Memory)
    (as : List Nat) : (peerReads stored written event old new k as).length = as.length := by
  induction as generalizing k with
  | nil => rfl
  | cons a as ih => simp [peerReads, ih]

theorem peerReads_getElem? (stored : Option (Nat × Nat)) (written : List Nat) (event k i : Nat) (old new : Memory)
    (as : List Nat) :
    (peerReads stored written event old new k as)[i]? =
      (as[i]?).map fun a => peerRead stored written event (k + i) a old new := by
  induction as generalizing k i with
  | nil => simp [peerReads]
  | cons a as ih =>
    cases i with
    | zero => simp [peerReads]
    | succ i => simp only [peerReads, List.getElem?_cons_succ, ih, show k + 1 + i = k + (i + 1) by omega]

/-! ## One step -/

/-- A step of a machine with a transaction waiting performs it. -/
theorem step_eq_perform {s : State} {x : Txn} {rest : List Txn} (hb : s.bus = x :: rest) (hp : s.plat.wf = true) :
    step s = perform x { s with bus := rest } := by simp [step, hb, hp]

/-- The same, of a machine with one transaction before it. -/
theorem step_withTxn {s : State} (x : Txn) (hp : s.plat.wf = true) :
    step (withTxn s x) = perform x { s with bus := [] } := by simp [step, withTxn, hp]

/-- A host's read of the window while it responds. -/
theorem step_read_window {s : State} {off width : Nat} (hr : s.Ready) (ho : off < 0x100) :
    step (withTxn s (.read (s.plat.regBase + off) width)) =
      .next { s with bus := [], rdata := readOffset off width { s with bus := [] } } := by
  rw [step_withTxn _ hr.1]
  simp [perform, hostRead, windowOffset_base _ ho, hr.2]

/-- A host's write to the window while it responds. -/
theorem step_write_window {s : State} {off width : Nat} (v : Word) (hr : s.Ready) (ho : off < 0x100) :
    step (withTxn s (.write (s.plat.regBase + off) width v)) = writeOffset off width v { s with bus := [] } := by
  rw [step_withTxn _ hr.1]
  simp [perform, hostWrite, windowOffset_base _ ho, hr.2]

theorem step_next {s t : State} {x : Txn} {rest : List Txn} (hb : s.bus = x :: rest) (h : step s = .next t) :
    s.plat.wf = true ∧ perform x { s with bus := rest } = .next t := by
  simp only [step, hb] at h
  split at h
  · rename_i hp; exact ⟨hp, h⟩
  · exact absurd h (by simp)

/-- What issuing a command word can end in (R105). -/
inductive IssueCase (w : Word) (s : State) : State → Prop where
  | illegal (e : DecodeError) (hd : decode w = .error e) : IssueCase w s { s with err := .illegalCommand }
  | legal (i : Instr) (t : State) (hd : decode w = .ok i) (he : exec i s = .next t) : IssueCase w s t

theorem issueCommand_cases {w : Word} {s t : State} (h : issueCommand w s = .next t) : IssueCase w s t := by
  unfold issueCommand at h
  split at h
  · rename_i i hd; exact .legal i t hd h
  · rename_i e hd
    have : { s with err := .illegalCommand } = t := by simpa [raiseError] using h
    exact this ▸ .illegal e hd

theorem issueCommand_surroundings {w : Word} {s t : State} (h : issueCommand w s = .next t) : SameSurroundings s t := by
  cases issueCommand_cases h with
  | illegal e hd => constructor <;> rfl
  | legal i _ hd he => exact exec_surroundings he

/-- The ways a transaction is performed to a next state. -/
inductive PerformCase (x : Txn) (s : State) : State → Prop where
  /-- Nothing changes but what a host read returned. -/
  | silent (rd : Word) (d : Nat) (hc : commandOf x s = none) (hr : resetsEngine x s = false)
      (ho : ∀ off old, 0x10 ≤ off → off ≤ 0x24 → off % 4 = 0 → operandAfter x s off old = old) :
      PerformCase x s { s with rdata := rd, draws := d }
  /-- A host writes an operand register: the one at the offset it writes. -/
  | operand (off : Nat) (v a b c d e f : Word) (hx : x = .write (s.plat.regBase + off) 4 v)
      (h1 : 0x10 ≤ off) (h2 : off ≤ 0x24) (hc : commandOf x s = none)
      (ha : a = operandAfter x s 0x10 s.src) (hb : b = operandAfter x s 0x14 s.dst) (hl : c = operandAfter x s 0x18 s.len)
      (hk : d = operandAfter x s 0x1C s.keyaddr) (hn : e = operandAfter x s 0x20 s.nonceaddr)
      (hf : f = operandAfter x s 0x24 s.ctrinit) :
      PerformCase x s { s with src := a, dst := b, len := c, keyaddr := d, nonceaddr := e, ctrinit := f }
  /-- A host issues a command. -/
  | command (w : Word) (t : State) (hx : x = .write s.plat.regBase 4 w) (hc : commandOf x s = some w)
      (hi : issueCommand w s = .next t) : PerformCase x s t
  /-- A host writes a byte of memory. -/
  | memory (a : Nat) (v : Byte) (hx : x = .memWrite a v) (ha : a < s.plat.memSize) :
      PerformCase x s { s with mem := s.mem.write a v }
  /-- Other masters access memory while the reset is asserted. -/
  | quiet (w : Word) (writes : List Host.Cell) (reads : List Nat) (hx : x = .contended w writes reads)
      (hw : ∀ c ∈ writes, c.1 < s.plat.memSize) (hc : commandOf x s = none) :
      PerformCase x s (settleRace none writes reads s s)
  /-- Other masters access memory while a command runs. -/
  | race (w : Word) (writes : List Host.Cell) (reads : List Nat) (t : State) (hx : x = .contended w writes reads)
      (hw : ∀ c ∈ writes, c.1 < s.plat.memSize) (hc : commandOf x s = some w)
      (hi : issueCommand w { s with raced := writes.map (·.1) } = .next t) :
      PerformCase x s (settleRace (storedBuffer w t) writes reads s t)
  /-- The reset is asserted or released. -/
  | reset (b : Bool) (hr : resetsEngine x s = true) : PerformCase x s { engineReset s with inReset := b }
  /-- The reset is asserted while a command runs. -/
  | interrupted (w : Word) (t : State) (hx : x = .resetDuring w) (hr : resetsEngine x s = true)
      (hi : issueCommand w s = .next t) :
      PerformCase x s
        { engineReset s with
          inReset := true
          mem := s.mem.writeBytes (interruptedBuffer w s).1
            (Config.freeBytes .resetDuring s.draws (interruptedBuffer w s).2)
          draws := s.draws + 1 }

/-- A write that is no aligned 32-bit write of an operand register leaves what `operandAfter` says as it was. -/
theorem operandAfter_write_ne {addr width off off' : Nat} {v old : Word} {s : State} (ha : addr = s.plat.regBase + off)
    (h : off ≠ off' ∨ width ≠ 4 ∨ s.inReset = true) : operandAfter (.write addr width v) s off' old = old := by
  simp only [operandAfter, ite_eq_right_iff]
  rintro ⟨h1, h2, h3⟩
  rcases h with h | h | h
  · omega
  · exact absurd h2 h
  · simp [h] at h3

theorem operandAfter_write_eq {off : Nat} {v old : Word} {s : State} (hr : s.inReset = false) :
    operandAfter (.write (s.plat.regBase + off) 4 v) s off old = v := by simp [operandAfter, hr]

theorem hostWrite_cases {addr width : Nat} {v : Word} {s t : State} (h : hostWrite addr width v s = .next t) :
    PerformCase (.write addr width v) s t := by
  unfold hostWrite at h
  split at h
  · exact absurd h (by simp)
  · rename_i off ho
    obtain ⟨ha, hlt⟩ := windowOffset_eq_some ho
    have keep : ∀ {t' : State}, commandOf (.write addr width v) s = none →
        (∀ off', 0x10 ≤ off' → off' ≤ 0x24 → off' % 4 = 0 → off ≠ off' ∨ width ≠ 4 ∨ s.inReset = true) →
        (Host.Outcome.next s : Host.Outcome State Fault Refusal) = .next t' →
        PerformCase (.write addr width v) s t' := by
      intro t' hc hne e
      cases e
      exact .silent s.rdata s.draws hc rfl fun off' _ h1 h2 h3 => operandAfter_write_ne ha (hne off' h1 h2 h3)
    split at h
    · rename_i hr
      exact keep (by simp [commandOf, hr]) (fun _ _ _ _ => .inr (.inr hr)) h
    · rename_i hr
      simp only [Bool.not_eq_true] at hr
      unfold writeOffset at h
      split at h
      · rename_i hw
        split at h
        · rename_i r hreg
          have hoff := regOffset_regAt hreg
          have no : off ≠ 0 → commandOf (.write addr width v) s = none := by
            intro h0; simp [commandOf, ho, h0]
          cases r <;> simp only [regOffset] at hoff <;> simp only [writeReg] at h
          case cmd =>
            subst hoff
            exact .command v t (by rw [ha, hw.1]; rfl) (by simp [commandOf, hw.1, ho, hr]) h
          case status => exact keep (no (by omega)) (fun _ _ _ _ => .inl (by omega)) h
          case kpos => exact keep (no (by omega)) (fun _ _ _ _ => .inl (by omega)) h
          case s i => exact keep (no (by omega)) (fun _ _ _ _ => .inl (by omega)) h
          all_goals
            cases h
            refine .operand off v _ _ _ _ _ _ (by rw [ha, hw.1]) (by omega) (by omega) (no (by omega)) ?_ ?_ ?_ ?_ ?_ ?_ <;>
              subst hoff <;> rw [ha, hw.1] <;>
              first
              | exact (operandAfter_write_eq hr).symm
              | exact (operandAfter_write_ne rfl (.inl (by omega))).symm
        · rename_i hreg
          refine keep ?_ (fun off' h1 h2 h3 => .inl ?_) h
          · have : off ≠ 0 := by rintro rfl; simp [regAt] at hreg
            simp [commandOf, ho, this]
          · rintro rfl
            obtain rfl | rfl | rfl | rfl | rfl | rfl :
                off = 0x10 ∨ off = 0x14 ∨ off = 0x18 ∨ off = 0x1C ∨ off = 0x20 ∨ off = 0x24 := by omega
            all_goals simp [regAt] at hreg
      · rename_i hw
        refine keep ?_ (fun off' _ _ h3 => ?_) h
        · simp only [commandOf, ho]
          rw [if_neg]
          rintro ⟨-, h4, h0⟩
          simp only [Option.some.injEq] at h0
          omega
        · by_cases h4 : width = 4
          · exact .inl (by rintro rfl; exact hw ⟨h4, h3⟩)
          · exact .inr (.inl h4)

theorem perform_cases {x : Txn} {s t : State} (h : perform x s = .next t) : PerformCase x s t := by
  cases x with
  | write addr width v => exact hostWrite_cases h
  | read addr width =>
    simp only [perform, hostRead] at h
    split at h
    · exact absurd h (by simp)
    · split at h <;> cases h
      · exact .silent _ _ rfl rfl fun _ _ _ _ _ => rfl
      · exact .silent _ s.draws rfl rfl fun _ _ _ _ _ => rfl
  | memWrite a v =>
    simp only [perform, hostMemWrite] at h
    split at h
    · rename_i ha; cases h; exact .memory a v rfl (plainMemory_lt ha)
    · exact absurd h (badMemory_ne_next _ _ _)
  | memRead a =>
    simp only [perform, hostMemRead] at h
    split at h
    · cases h; exact .silent _ s.draws rfl rfl fun _ _ _ _ _ => rfl
    · exact absurd h (badMemory_ne_next _ _ _)
  | contended w writes reads =>
    simp only [perform, contendedCommand] at h
    split at h
    · exact absurd h (badMemory_ne_next _ _ _)
    · rename_i hb
      have hw : ∀ c ∈ writes, c.1 < s.plat.memSize := fun c hc =>
        firstBad_eq_none hb c.1 (List.mem_append_left _ (List.mem_map_of_mem hc))
      split at h
      · rename_i hr; cases h; exact .quiet w writes reads rfl hw (by simp [commandOf, hr])
      · rename_i hr
        split at h
        · rename_i t' hi; cases h; exact .race w writes reads t' rfl hw (by simp [commandOf, hr]) hi
        · exact absurd h (by simp)
        · exact absurd h (by simp)
  | resetAssert => cases h; exact .reset true rfl
  | resetRelease => cases h; exact .reset false rfl
  | resetDuring w =>
    simp only [perform, resetDuringCommand] at h
    split at h
    · rename_i hr; cases h; exact .silent s.rdata s.draws rfl (by simp [resetsEngine, hr]) fun _ _ _ _ _ => rfl
    · rename_i hr
      split at h
      · exact absurd h (by simp)
      · exact absurd h (by simp)
      · rename_i t' hi
        split at h
        · exact absurd h (by simp)
        · cases h; exact .interrupted w t' rfl (by simp [resetsEngine, hr]) hi

end Sys2Proof.Machine
end

