-- ==== Sys2Proof/Tests/Slice0.lean ====
section
/-! SUPPORT. Tests of the model on single steps and single words. Every expected value is one of the spec's own
(95_test_vectors.md and the tables and examples of the rules; the vector is named at each test), and every statement with
hypotheses has a theorem witness_<its name> that meets them. -/

namespace Sys2Proof.Tests

open Sys2Proof Sys2Proof.Machine

/-! ## Small states -/

/-- A platform of the spec's vectors: `MEM_SIZE` = 0x1000, with a given `IETF_WRAP_CARRY`. -/
def platform (carry : Bool) : Platform :=
  { memSize := 0x1000, regBase := 0x10000, ietfWrapCarry := carry, devices := [] }

/-- A fresh machine on that platform. -/
def fresh : State := { State.reset with plat := platform false }

/-- The stream of V-INIT1. -/
def zeroStream : Machine.Stream :=
  { Stream.reset with
    layout := .ext
    S := #v[0x61707865, 0x3320646e, 0x79622d32, 0x6b206574, 0, 0, 0, 0, 0, 0, 0, 0, 0, 0, 0, 0] }

/-- The machine with the zero EXT stream, "testing" at 0x200, `SRC` = 0x200, `DST` = 0x300 and a given `LEN`. -/
def zeroExt (len : Word) : State :=
  { fresh with
    stream := zeroStream, initd := true, keyaddr := 0x100, nonceaddr := 0x120, src := 0x200, dst := 0x300, len := len
    mem := [(0x200, 0x74), (0x201, 0x65), (0x202, 0x73), (0x203, 0x74), (0x204, 0x69), (0x205, 0x6e), (0x206, 0x67)] }

/-- The machine before the `INIT` of V-INIT2: the key 00 01 ... 1f at 0x100, and its nonce at 0x120. -/
def beforeInit : State :=
  { fresh with
    keyaddr := 0x100, nonceaddr := 0x120, ctrinit := 1
    mem := (Memory.writeBytes [] 0x100 ((List.range 32).map (BitVec.ofNat 8))).writeBytes 0x120
      [0x00, 0x00, 0x00, 0x09, 0x00, 0x00, 0x00, 0x4a, 0x00, 0x00, 0x00, 0x00] }

/-- The machine after one host write of `v` at a window offset, then one 32-bit host read at another: what was read. -/
def writeThenRead (s : State) (off width : Nat) (v : Word) (off' : Nat) : Option Word :=
  (nextState (step (withTxn s (.write (s.plat.regBase + off) width v)))).bind fun t =>
    (nextState (step (withTxn t (.read (s.plat.regBase + off') 4)))).map (·.rdata)

/-- `STATUS` after a command word. -/
def statusAfter (s : State) (w : Word) : Option Word :=
  (nextState (step (withTxn s (commandTxn s.plat w)))).map statusWord

/-! ## Well-formedness: the check refuses each ill-formed term -/

theorem test_wf_klen : (Instr.init 256 12).wf = false := by decide
theorem test_wf_nlen : (Instr.init 32 256).wf = false := by decide
theorem test_wf_ok : (Instr.init 255 255).wf = true := by decide
theorem test_wf_memory_empty : ({ platform false with memSize := 0 } : Platform).wf = false := by decide
theorem test_wf_memory_too_large :
    ({ platform false with memSize := 0x100000001, regBase := 0x200000000 } : Platform).wf = false := by decide
theorem test_wf_base_unaligned : ({ platform false with regBase := 0x10080 } : Platform).wf = false := by decide
theorem test_wf_base_in_memory : ({ platform false with regBase := 0xF00 } : Platform).wf = false := by decide
theorem test_wf_platform_ok : (platform true).wf = true ∧ resetPlatform.wf = true := by decide

/-! ## Decoding (V-DEC; the words are written out from the field layout of R71) -/

/-- V-DEC 1. -/
theorem test_decode_nop : decode 0b00000000_00000000_00000000_0000_0000#32 = .ok .nop := rfl
/-- V-DEC 2: `KLEN` = 32 in bits 23:16, `NLEN` = 12 in bits 15:8, `OP` = 1. -/
theorem test_decode_init : decode 0b00000000_00100000_00001100_0000_0001#32 = .ok (.init 32 12) := rfl
/-- V-DEC 4. -/
theorem test_decode_encrypt : decode 0b00000000_00000000_00000000_0000_0010#32 = .ok .encrypt := rfl
/-- V-DEC 5. -/
theorem test_decode_keystream : decode 0b00000000_00000000_00000000_0000_0011#32 = .ok .keystream := rfl
/-- V-DEC 6 to 12: every `INIT` word is legal, whatever its lengths. -/
theorem test_decode_any_length :
    decode 0x00000001#32 = .ok (.init 0 0) ∧ decode 0x00210C01#32 = .ok (.init 33 12) ∧
      decode 0x00001001#32 = .ok (.init 0 16) ∧ decode 0x00FFFF01#32 = .ok (.init 255 255) :=
  ⟨rfl, rfl, rfl, rfl⟩
/-- V-DEC 13 to 22: the illegal words. -/
theorem test_decode_illegal :
    [0x00000004#32, 0x0000000F#32, 0x00000010#32, 0x01000000#32, 0x00000100#32, 0x00000102#32, 0x00200003#32, 0x00200C11#32,
      0x01200C01#32, 0xFFFFFFFF#32].all (fun w => decodeTableWord 32 w.toNat = none) = true := by decide
/-- Each refused word is refused by name. -/
theorem test_decode_reasons :
    decode 0x0000000F#32 = .error (.reservedOp 15) ∧ decode 0x01200C01#32 = .error .reservedField ∧
      decode 0x00200003#32 = .error .strayLength :=
  ⟨rfl, rfl, rfl⟩
/-- The host's numbering of table words. -/
theorem test_decode_table_word : decodeTableWord 32 0x00200801 = some (.init 32 8) := by decide

/-! ## The assembler (R77, R78) -/

theorem test_assemble_init : assemble "INIT 32, 0x0C".toList = some 0x00200C01#32 := by decide
theorem test_assemble_pseudo :
    assemble "INIT.EXT".toList = some 0x00200801#32 ∧ assemble "DECRYPT".toList = some 0x00000002#32 := by decide
theorem test_assemble_range : assemble "INIT 256, 12".toList = none := by decide
theorem test_host_line : hostLineTxns (platform false) (.wr .len 0x41) = some [.write 0x10018 4 0x41] := by decide

/-! ## The register window (V-HOST) -/

/-- V-HOST 1. -/
theorem test_reset_status : (nextState (step (withTxn fresh (.read 0x10004 4)))).map (·.rdata) = some 0x00000000#32 := by
  decide
/-- V-HOST 2. -/
theorem test_write_len : writeThenRead fresh 0x18 4 0x41 0x18 = some 0x00000041#32 := by decide
/-- V-HOST 3. -/
theorem test_write_status : writeThenRead fresh 0x04 4 0xFFFFFFFF 0x04 = some 0x00000000#32 := by decide
/-- V-HOST 4. -/
theorem test_write_s4 : writeThenRead fresh 0x50 4 0x12345678 0x50 = some 0x00000000#32 := by decide
/-- V-HOST 5. -/
theorem test_write_reserved : writeThenRead fresh 0x0C 4 0xFFFFFFFF 0x0C = some 0x00000000#32 := by decide
/-- V-HOST 7. -/
theorem test_write_halfword : writeThenRead fresh 0x18 2 0x1234 0x18 = some 0x00000000#32 := by decide
/-- V-HOST 8. -/
theorem test_read_unaligned :
    (nextState (step (withTxn { fresh with src := 0x11223344, dst := 0x55667788 } (.read 0x10012 4)))).map (·.rdata) =
      some 0x00000000#32 := by decide
/-- R100's table and the readback of a state word (V-HOST 9). -/
theorem test_read_s0 :
    (nextState (step (withTxn (zeroExt 0) (.read 0x10040 4)))).map (·.rdata) = some 0x61707865#32 := by decide

/-! ## NOP (V-APP10) -/

theorem test_nop_clears_error : statusAfter { zeroExt 0 with err := .bufferTooSmall } 0x00000000#32 = some 0x00000003#32 := by
  decide
theorem test_nop_from_reset : step (State.reset.withFetchWord 32 0) = .next State.reset := rfl

/-! ## INIT -/

/-- V-INIT2. -/
theorem test_init_ietf :
    (nextState (exec (.init 32 12) beforeInit)).map (fun t => (t.stream.S, statusWord t)) =
      some (#v[0x61707865, 0x3320646e, 0x79622d32, 0x6b206574, 0x03020100, 0x07060504, 0x0b0a0908, 0x0f0e0d0c,
        0x13121110, 0x17161514, 0x1b1a1918, 0x1f1e1d1c, 0x00000001, 0x09000000, 0x4a000000, 0x00000000], 0x1#32) := by
  decide +kernel
/-- V-INIT3: words 12 to 15 of the `EXT` layout. -/
theorem test_init_ext :
    (nextState (exec (.init 32 8)
      { fresh with
        keyaddr := 0x100, nonceaddr := 0x120, ctrinit := 0xDEADBEEF
        mem := Memory.writeBytes [] 0x120 [1, 2, 3, 4, 5, 6, 7, 8] })).map
        (fun t => (t.stream.S[12], t.stream.S[13], t.stream.S[14], t.stream.S[15], statusWord t)) =
      some (0xdeadbeef#32, 0x00000000#32, 0x04030201#32, 0x08070605#32, 0x3#32) := by decide +kernel

/-! ## The quarter-round, the block function and the counter -/

/-- V-QR1. -/
theorem test_quarter_round :
    quarterRound #v[0x11111111, 0, 0, 0, 0x01020304, 0, 0, 0, 0x9b8d6f43, 0, 0, 0, 0x01234567, 0, 0, 0] 0 4 8 12 =
      #v[0xea2a92f4, 0, 0, 0, 0xcb1cf8ce, 0, 0, 0, 0x4581472e, 0, 0, 0, 0x5881c4bb, 0, 0, 0] := by decide
/-- V-QR6: a carry out of bit 31 is discarded. -/
theorem test_quarter_round_carry :
    quarterRound #v[0x80000000, 0, 0, 0, 0x80000000, 0, 0, 0, 0, 0, 0, 0, 0, 0, 0, 0] 0 4 8 12 =
      #v[0x00000800, 0, 0, 0, 0x04040000, 0, 0, 0, 0x00080000, 0, 0, 0, 0x00080000, 0, 0, 0] := by decide
/-- V-BLK3: the words of the block of V-INIT2's state, feed-forward included. -/
theorem test_feed_forward :
    feedForward #v[0x61707865, 0x3320646e, 0x79622d32, 0x6b206574, 0x03020100, 0x07060504, 0x0b0a0908, 0x0f0e0d0c,
        0x13121110, 0x17161514, 0x1b1a1918, 0x1f1e1d1c, 0x00000001, 0x09000000, 0x4a000000, 0x00000000] =
      #v[0xe4e7f110, 0x15593bd1, 0x1fdd0f50, 0xc47120a3, 0xc7f4d1c7, 0x0368c033, 0x9aaa2204, 0x4e6cd4c3,
        0x466482d2, 0x09aa9f07, 0x05d7c214, 0xa2028bd9, 0xd19c12b5, 0xb94e16de, 0xe883d0cb, 0x4e3c50a2] := by decide +kernel
/-- V-CTR 2: no carry at the sign bit. -/
theorem test_counter_no_sign_carry :
    (counterIncrement false { zeroStream with S := zeroStream.S.set 12 0x7fffffff }).S[13] = 0#32 := by decide
/-- V-CTR 5. -/
theorem test_counter_ext_wrap :
    (let st := counterIncrement false { zeroStream with S := (zeroStream.S.set 12 0xffffffff).set 13 0xffffffff }
     (st.S[12], st.S[13], st.S[14], st.wrap)) = (0#32, 0#32, 0#32, true) := by decide
/-- V-CTR 6 and 7. -/
theorem test_counter_ietf_wrap :
    [false, true].map (fun carry =>
      let st := counterIncrement carry
        { zeroStream with layout := .ietf, S := (zeroStream.S.set 12 0xffffffff).set 13 0x04030201 }
      (st.S[12], st.S[13], st.wrap)) = [(0#32, 0x04030201#32, true), (0#32, 0x04030202#32, true)] := by decide

/-! ## ENCRYPT and KEYSTREAM -/

/-- V-APP1: "testing" encrypted. -/
theorem test_encrypt :
    (nextState (exec .encrypt (zeroExt 7))).map
        (fun t => ((List.range 8).map fun i => t.mem.read (0x300 + i), t.stream.S[12], t.stream.kpos, statusWord t)) =
      some ([0x02, 0xdd, 0x93, 0xd9, 0xc9, 0x9f, 0x5a, 0x00], 1#32, 7#6, 0x3#32) := by decide +kernel
/-- V-APP2. -/
theorem test_keystream :
    (nextState (exec .keystream (zeroExt 8))).map
        (fun t => ((List.range 8).map fun i => t.mem.read (0x300 + i), t.stream.S[12], t.stream.kpos)) =
      some ([0x76, 0xb8, 0xe0, 0xad, 0xa0, 0xf1, 0x3d, 0x90], 1#32, 8#6) := by decide +kernel
/-- V-APP11: a zero length with wild addresses. -/
theorem test_zero_length :
    (nextState (exec .encrypt { zeroExt 0 with src := 0xFFFFFFFF, dst := 0xFFFFFFFF })).map
      (fun t => (t.err, t.stream.kpos, t.stream.S[12])) = some (.ok, 0#6, 0#32) := by decide
/-- R59: on a partial overlap everything but the destination bytes is as ever. -/
theorem test_partial_overlap :
    (nextState (exec .encrypt { zeroExt 7 with dst := 0x203 })).map (fun t => (t.err, t.stream.kpos, t.mem.read 0x202)) =
      some (.ok, 7#6, 0x73#8) := by decide +kernel

/-! ## Errors (V-ERR) -/

/-- V-ERR 1. -/
theorem test_err_not_initialized : statusAfter { fresh with len := 5 } 0x00000002#32 = some 0x40#32 := by decide
/-- V-ERR 2. -/
theorem test_err_not_initialized_empty : statusAfter fresh 0x00000003#32 = some 0x40#32 := by decide
/-- V-ERR 3. -/
theorem test_err_illegal : statusAfter fresh 0x00000004#32 = some 0x50#32 := by decide
/-- V-ERR 4. -/
theorem test_err_key_length : statusAfter fresh 0x001F0C01#32 = some 0x10#32 := by decide
/-- V-ERR 5. -/
theorem test_err_nonce_length : statusAfter fresh 0x00200A01#32 = some 0x20#32 := by decide
/-- V-ERR 6. -/
theorem test_err_key_buffer : statusAfter { fresh with keyaddr := 0xFE1 } 0x00200801#32 = some 0x30#32 := by decide
/-- V-ERR 9. -/
theorem test_err_source_buffer :
    statusAfter { zeroExt 5 with src := 0xFFC, dst := 0x800 } 0x00000002#32 = some 0x33#32 := by decide
/-- V-ERR 13: the end of the key buffer is computed with no wrap. -/
theorem test_err_no_wrap : statusAfter { fresh with keyaddr := 0xFFFFFFF0 } 0x00200801#32 = some 0x30#32 := by decide
/-- R57: a buffer over memory with side effects is refused. -/
theorem test_side_effects :
    exec .keystream { zeroExt 5 with plat := { platform false with devices := [{ base := 0x304, size := 4 }] } } =
      .refused .sideEffectMemory := rfl

/-! ## Reset and other masters -/

/-- R230, R232: a reset clears the engine and leaves memory. -/
theorem test_reset_keeps_memory :
    (nextState (step (withTxn (zeroExt 7) .resetRelease))).map (fun t => (t.initd, t.src, t.mem.read 0x200)) =
      some (false, 0#32, 0x74#8) := by decide
/-- R57: a command whose source, or whose key, covers memory with side effects is refused also when a reset interrupts it. -/
theorem test_reset_during_refuses_source :
    step (withTxn { zeroExt 7 with plat := { platform false with devices := [{ base := 0x206, size := 1 }] } }
      (.resetDuring 0x00000002)) = .refused .sideEffectMemory := rfl
theorem test_reset_during_refuses_key :
    step (withTxn { beforeInit with plat := { platform false with devices := [{ base := 0x11F, size := 1 }] } }
      (.resetDuring 0x00200C01)) = .refused .sideEffectMemory := rfl
/-- R50: there is no memory at `MEM_SIZE`. -/
theorem test_no_such_memory : step (withTxn fresh (.memWrite 0x1000 1)) = .fault (.noSuchMemory 0x1000) := rfl

/-! ## Witnesses: each statement's hypotheses can be met -/

theorem plain_of_no_devices {p : Platform} (h : p.devices = []) (a n : Nat) : plainBuffer p a n := by
  intro x _ _ r hr
  rw [h] at hr
  cases hr

theorem fresh_ready : fresh.Ready := ⟨rfl, rfl⟩
theorem zeroExt_ready (n : Word) : (zeroExt n).Ready := ⟨by show (platform false).wf = true; decide, rfl⟩
theorem zeroExt_wf (n : Word) : (zeroExt n).mem.wf := by show Memory.wf (zeroExt 0).mem; decide

theorem witness_DecodeOfEncodeIsTheCommand : (Instr.init 255 255).wf = true ∧ (Instr.init 0 0).wf = true := by decide
theorem witness_EncodeOfDecodeIsTheWord : decode 0x00FF0001#32 = .ok (.init 255 0) := rfl
theorem witness_LegalWordsAreTheTableRows : decode 0x0000FF01#32 = .ok (.init 0 255) := rfl
/-- Both clauses, at the ends of their ranges. -/
theorem witness_InitLinesAssemble :
    (0 ≤ 255 ∧ 255 ≤ 255) ∧ asmWord (.init 255 255) = some 0x00FFFF01#32 ∧ asmWord (.init 0 0) = some 0x00000001#32 ∧
      asmWord (.init 256 0) = none ∧ asmWord (.init 0 256) = none := by decide
theorem witness_StepRunsTheDecodedCommand :
    (withTxn fresh (.write 0x10000 4 0x00200801)).Ready ∧
      (withTxn fresh (.write 0x10000 4 0x00200801)).bus = .write (fresh.plat.regBase + 0x00) 4 0x00200801 :: [] ∧
      decode 0x00200801#32 = .ok (.init 32 8) := ⟨⟨rfl, rfl⟩, rfl, rfl⟩
theorem witness_IllegalWordsRaiseIllegalCommand :
    (withTxn fresh (.write 0x10000 4 0x00000004)).Ready ∧
      (withTxn fresh (.write 0x10000 4 0x00000004)).bus = .write (fresh.plat.regBase + 0x00) 4 0x00000004 :: [] ∧
      0x00000004#32 &&& 0xFFFFFFFF#32 ≠ 0x00000000#32 ∧ 0x00000004#32 &&& 0xFF0000FF#32 ≠ 0x00000001#32 ∧
      0x00000004#32 &&& 0xFFFFFFFF#32 ≠ 0x00000002#32 ∧ 0x00000004#32 &&& 0xFFFFFFFF#32 ≠ 0x00000003#32 :=
  ⟨⟨rfl, rfl⟩, rfl, by decide⟩
theorem witness_IdleEngineIsConstant : State.reset.bus = [] := rfl
theorem witness_WindowInsideMemoryIsRefused :
    (withTxn { fresh with plat := { platform false with regBase := 0xF00 } } .resetRelease).bus ≠ [] ∧ 0xF00 < 0x1000 := by
  decide

/-- The invariant holds of a fresh machine. -/
theorem fresh_inv : fresh.Inv :=
  ⟨⟨by decide, fun c hc => by cases hc⟩, ⟨fun _ => rfl, fun h => by cases h⟩, rfl⟩
/-- The premises of the clauses on the state words, on reserved offsets (each end of each range), and on widths and
alignments. -/
theorem witness_WindowReads :
    fresh.Ready ∧ (fresh.Inv ∧ fresh.initd = false) ∧
      (reservedOffset 0x0C ∧ reservedOffset 0x28 ∧ reservedOffset 0x3C ∧ reservedOffset 0x80 ∧ reservedOffset 0xFC) ∧
      (0xFC < 0x100 ∧ (2 ≠ 4 ∨ 0xFC % 4 ≠ 0)) ∧ (0xFF < 0x100 ∧ (4 ≠ 4 ∨ 0xFF % 4 ≠ 0)) := by
  refine ⟨fresh_ready, ⟨fresh_inv, rfl⟩, ?_, by decide, by decide⟩
  simp only [reservedOffset]
  decide
theorem witness_WindowWrites : fresh.Ready ∧ reservedOffset 0x0C ∧ (0x02 < 0x100 ∧ (4 ≠ 4 ∨ 0x02 % 4 ≠ 0)) := by
  refine ⟨fresh_ready, ?_, by decide⟩
  simp only [reservedOffset]
  decide
theorem witness_StatusFields : (zeroExt 0).Ready ∧ statusWord (zeroExt 0) = 0x00000003#32 := ⟨zeroExt_ready 0, by decide⟩
/-- Each error is raised by a command: `INIT 31 12`, `INIT 32 10`, an `ENCRYPT` past the end of memory, one without a stream, and a
reserved opcode. -/
theorem witness_StatusFields_errors :
    (∃ t, issueCommand 0x001F0C01#32 fresh = .next t ∧ t.err = .invalidKeyLength) ∧
    (∃ t, issueCommand 0x00200A01#32 fresh = .next t ∧ t.err = .invalidNonceLength) ∧
    (∃ t, issueCommand 0x00000002#32 (zeroExt 0xFFFFFFFF) = .next t ∧ t.err = .bufferTooSmall) ∧
    (∃ t, issueCommand 0x00000002#32 fresh = .next t ∧ t.err = .notInitialized) ∧
    (∃ t, issueCommand 0x00000004#32 fresh = .next t ∧ t.err = .illegalCommand) :=
  ⟨⟨_, rfl, rfl⟩, ⟨_, rfl, rfl⟩, ⟨_, rfl, rfl⟩, ⟨_, rfl, rfl⟩, _, rfl, rfl⟩
theorem witness_RotationBits :
    (0 < 1 ∧ 1 < 32 ∧ 0 < 32) ∧ (0 < 31 ∧ 31 < 32) ∧ rotl32 0x80000001#32 1 = 0x00000003#32 := by decide
theorem witness_QuarterRoundLines :
    ((0 : Fin 16) ≠ 4 ∧ (0 : Fin 16) ≠ 8 ∧ (0 : Fin 16) ≠ 12 ∧ (4 : Fin 16) ≠ 8 ∧ (4 : Fin 16) ≠ 12 ∧ (8 : Fin 16) ≠ 12) ∧
      ((1 : Fin 16) ≠ 0 ∧ (1 : Fin 16) ≠ 4 ∧ (1 : Fin 16) ≠ 8 ∧ (1 : Fin 16) ≠ 12) := by decide
/-- A reordering of each round's quarter-rounds. -/
theorem witness_RoundLanesAreIndependent :
    List.Perm [((3, 7, 11, 15) : Fin 16 × Fin 16 × Fin 16 × Fin 16), (2, 6, 10, 14), (1, 5, 9, 13), (0, 4, 8, 12)]
      [(0, 4, 8, 12), (1, 5, 9, 13), (2, 6, 10, 14), (3, 7, 11, 15)] ∧
    List.Perm [((3, 4, 9, 14) : Fin 16 × Fin 16 × Fin 16 × Fin 16), (2, 7, 8, 13), (1, 6, 11, 12), (0, 5, 10, 15)]
      [(0, 5, 10, 15), (1, 6, 11, 12), (2, 7, 8, 13), (3, 4, 9, 14)] :=
  ⟨List.reverse_perm [(0, 4, 8, 12), (1, 5, 9, 13), (2, 6, 10, 14), (3, 7, 11, 15)],
    List.reverse_perm [(0, 5, 10, 15), (1, 6, 11, 12), (2, 7, 8, 13), (3, 4, 9, 14)]⟩
theorem witness_ExtCounterIncrement : zeroStream.layout = .ext := rfl
theorem witness_IetfCounterIncrement :
    ({ zeroStream with layout := .ietf, S := zeroStream.S.set 12 0xffffffff } : Machine.Stream).layout = .ietf ∧
      (zeroStream.S.set 12 0xffffffff)[12] = 0xFFFFFFFF#32 := ⟨rfl, rfl⟩

/-- A machine that is about to read its status, on a stream that has wrapped. -/
def wrapped : State :=
  withTxn { zeroExt 0 with stream := { zeroStream with wrap := true } } (.read 0x10004 4)
theorem witness_WrapIsSticky : ∃ t, wrapped.stream.wrap = true ∧ wrapped.bus = .read 0x10004 4 :: [] ∧ step wrapped = .next t :=
  ⟨_, rfl, rfl, rfl⟩
/-- Both clauses, at the ends of their ranges. -/
theorem witness_NextByteRefillsOnlyWhenEmpty :
    zeroStream.kpos = 0#6 ∧ ({ zeroStream with kpos := 1#6 } : Machine.Stream).kpos ≠ 0#6 ∧
      ({ zeroStream with kpos := 63#6 } : Machine.Stream).kpos ≠ 0#6 := by decide
theorem witness_KeystreamByPosition : zeroStream.kpos = 0#6 ∧ 64 < 65 := by decide
theorem witness_BlocksOfOneCommand :
    (∃ t, exec .encrypt (zeroExt 7) = .next t ∧ t.err = .ok) ∧ ∃ t, exec .keystream (zeroExt 7) = .next t ∧ t.err = .ok :=
  ⟨⟨_, rfl, rfl⟩, _, rfl, rfl⟩
/-- Each clause: a fresh stream of the `EXT` layout, and the three lengths. -/
theorem witness_BlockSizeBoundaries :
    (∃ t, (zeroExt 63).stream.kpos = 0#6 ∧ (zeroExt 63).len = 63#32 ∧ exec .keystream (zeroExt 63) = .next t ∧ t.err = .ok) ∧
    (∃ t, (zeroExt 64).stream.kpos = 0#6 ∧ (zeroExt 64).len = 64#32 ∧ exec .encrypt (zeroExt 64) = .next t ∧ t.err = .ok) ∧
    (∃ t, (zeroExt 65).stream.kpos = 0#6 ∧ (zeroExt 65).len = 65#32 ∧ exec .encrypt (zeroExt 65) = .next t ∧ t.err = .ok) :=
  ⟨⟨_, rfl, rfl, rfl, rfl⟩, ⟨_, rfl, rfl, rfl, rfl⟩, _, rfl, rfl, rfl, rfl⟩
/-- A machine of either layout that is about to run a `KEYSTREAM` of seven bytes. -/
def beforeSeven (l : Layout) : State :=
  withTxn { zeroExt 7 with stream := { zeroStream with layout := l } } (.write 0x10000 4 0x00000003)
/-- A run that moves seven bytes, on a stream of either layout. -/
theorem witness_CounterAdvancesWithBytesMoved (l : Layout) :
    ∃ t, (beforeSeven l).stream.layout = l ∧ (beforeSeven l).stream.kpos = 0#6 ∧ Streamed (beforeSeven l) 7 t := by
  obtain ⟨t, ht, hb⟩ : ∃ t, step (beforeSeven l) = .next t ∧ bytesMoved (.write 0x10000 4 0x00000003) (beforeSeven l) t = 7 :=
    ⟨complete (keystreamEffect { beforeSeven l with bus := [] }), by cases l <;> rfl, by cases l <;> rfl⟩
  have run := Streamed.more .start (show (beforeSeven l).bus = .write 0x10000 4 0x00000003 :: [] from rfl) ht rfl (by
    rintro ⟨w, k, n, hw, hd, -⟩
    cases hw
    exact absurd ((show decode 0x00000003#32 = .ok .keystream from rfl).symm.trans hd) (by simp))
  rw [hb] at run
  exact ⟨t, rfl, rfl, run⟩

/-- The lengths next to the legal ones. -/
theorem witness_InitRejectsLengths : (31 ≠ 32 ∧ 33 ≠ 32) ∧ (7 ≠ 8 ∧ 7 ≠ 12) ∧ (9 ≠ 8 ∧ 9 ≠ 12) ∧ (11 ≠ 8 ∧ 11 ≠ 12) ∧
    (13 ≠ 8 ∧ 13 ≠ 12) := by decide
theorem witness_ApplyNeedsAStream : State.reset.initd = false := rfl
/-- Each clause, one byte past the end of memory (0x1000). -/
theorem witness_OutsideBuffersAreTooSmall :
    (platform false).memSize < (0xFE1#32).toNat + 32 ∧ (platform false).memSize < (0xFF5#32).toNat + 12 ∧
      (zeroExt 5).initd = true ∧ 0 < (zeroExt 5).len.toNat ∧ (platform false).memSize < (0xFFC#32).toNat + (zeroExt 5).len.toNat := by
  decide
theorem witness_FailedCommandChangesOnlyErr : ∃ t, issueCommand 0x00000004#32 fresh = .next t ∧ t.err ≠ .ok :=
  ⟨_, rfl, by decide⟩
theorem witness_CommandsReportTheFirstFailingCheck :
    fresh.plat.devices = [] ∧ ∃ t, issueCommand 0x00200A01#32 fresh = .next t ∧ t.err = .invalidNonceLength :=
  ⟨rfl, _, rfl, rfl⟩
theorem witness_ZeroLengthIsANoOp : (zeroExt 0).initd = true ∧ (zeroExt 0).len = 0#32 := ⟨rfl, rfl⟩

/-- A platform with a device at one address of memory. -/
def deviceAt (a : Nat) : Platform := { platform false with devices := [{ base := a, size := 1 }] }
theorem not_plain (a b n : Nat) (h : b ≤ a ∧ a < b + n) : ¬ plainBuffer (deviceAt a) b n :=
  fun hp => hp a h.1 h.2 ⟨a, 1⟩ (by simp [deviceAt]) ⟨Nat.le_refl a, Nat.lt_succ_self a⟩
/-- Each clause, with the device at the last byte of the buffer. -/
theorem witness_SideEffectMemoryIsRefused :
    (0x100 + 32 ≤ (deviceAt 0x11F).memSize ∧ ¬ plainBuffer (deviceAt 0x11F) 0x100 32) ∧
      ((zeroExt 5).initd = true ∧ 0 < (zeroExt 5).len.toNat ∧ 0x300 + 5 ≤ (deviceAt 0x304).memSize ∧
        ¬ plainBuffer (deviceAt 0x304) 0x300 5) :=
  ⟨⟨by decide, not_plain _ _ _ (by decide)⟩, rfl, by decide, by decide, not_plain _ _ _ (by decide)⟩
/-- Buffers that end at the end of memory, in either layout. -/
theorem witness_InitBeginsAStream :
    (∀ n, n = 8 ∨ n = 12 → ∃ s : State, s.keyaddr = 0xFE0 ∧ s.keyaddr.toNat + 32 ≤ s.plat.memSize ∧
      s.nonceaddr.toNat + n ≤ s.plat.memSize ∧ plainBuffer s.plat s.keyaddr.toNat 32 ∧ plainBuffer s.plat s.nonceaddr.toNat n ∧
      unraced s s.keyaddr.toNat 32 ∧ unraced s s.nonceaddr.toNat n) := by
  intro n hn
  refine ⟨{ fresh with keyaddr := 0xFE0, nonceaddr := 0xFF4 }, rfl, by decide, ?_, plain_of_no_devices rfl _ _,
    plain_of_no_devices rfl _ _, ?_, ?_⟩
  · show 0xFF4 + n ≤ 0x1000
    omega
  · intro x _ _ h
    cases h
  · intro x _ _ h
    cases h
/-- Two machines that agree on the key and the nonce and differ in their streams. -/
theorem witness_SameInitSameStream :
    ∃ s s' t t' : State, s.stream ≠ s'.stream ∧ (∀ j, j < 32 → s.mem.read (s.keyaddr.toNat + j) = s'.mem.read (s'.keyaddr.toNat + j)) ∧
      (∀ j, j < 8 → s.mem.read (s.nonceaddr.toNat + j) = s'.mem.read (s'.nonceaddr.toNat + j)) ∧ s.ctrinit = s'.ctrinit ∧
      s.raced = [] ∧ s'.raced = [] ∧ exec (.init 32 8) s = .next t ∧ t.err = .ok ∧ exec (.init 32 8) s' = .next t' ∧ t'.err = .ok :=
  ⟨zeroExt 7, { zeroExt 7 with stream := Stream.reset }, _, _, by decide, fun _ _ => rfl, fun _ _ => rfl, rfl, rfl, rfl, rfl, rfl,
    rfl, rfl⟩
/-- Disjoint buffers, the same buffer, and buffers that end at the end of memory. -/
theorem witness_EncryptResult :
    (zeroExt 7).mem.wf ∧ (zeroExt 7).initd = true ∧ 0 < (zeroExt 7).len.toNat ∧
      (zeroExt 7).src.toNat + (zeroExt 7).len.toNat ≤ (zeroExt 7).plat.memSize ∧ (0xFF9#32).toNat + (zeroExt 7).len.toNat ≤ 0x1000 ∧
      plainBuffer (zeroExt 7).plat (zeroExt 7).src.toNat 7 ∧ plainBuffer (zeroExt 7).plat 0xFF9 7 ∧
      sameOrDisjoint 0x200 0x300 7 ∧ sameOrDisjoint 0x200 0x200 7 ∧ sameOrDisjoint 0x200 0x207 7 ∧ 0x200 ∉ (zeroExt 7).raced :=
  ⟨zeroExt_wf 7, rfl, by decide, by decide, by decide, plain_of_no_devices rfl _ _, plain_of_no_devices rfl _ _,
    .inr (.inl (by decide)), .inl rfl, .inr (.inl (by decide)), by decide⟩
theorem witness_KeystreamResult :
    (zeroExt 7).mem.wf ∧ (zeroExt 7).initd = true ∧ 0 < (zeroExt 7).len.toNat ∧
      (zeroExt 7).dst.toNat + (zeroExt 7).len.toNat ≤ (zeroExt 7).plat.memSize ∧
      plainBuffer (zeroExt 7).plat (zeroExt 7).dst.toNat (zeroExt 7).len.toNat :=
  ⟨zeroExt_wf 7, rfl, by decide, by decide, plain_of_no_devices rfl _ _⟩
theorem witness_StoringCommandsFrame :
    ∃ t, (zeroExt 7).mem.wf ∧ exec .encrypt (zeroExt 7) = .next t ∧ destBuffer .encrypt (zeroExt 7) = some (0x300, 7) :=
  ⟨_, zeroExt_wf 7, rfl, rfl⟩
theorem witness_NonStoringCommandsFrame :
    (∃ t, exec .nop (zeroExt 7) = .next t) ∧ (∃ t, exec (.init 32 8) (zeroExt 7) = .next t ∧ t.err = .ok) ∧
      ∃ t, exec (.init 31 8) (zeroExt 7) = .next t ∧ t.err ≠ .ok :=
  ⟨⟨_, rfl⟩, ⟨_, rfl, rfl⟩, _, rfl, by decide⟩
theorem witness_KeystreamXorSourceIsEncrypt :
    ∃ t u, (zeroExt 7).mem.wf ∧ (zeroExt 7).raced = [] ∧ sameOrDisjoint 0x200 0x300 7 ∧
      exec .keystream (zeroExt 7) = .next t ∧ t.err = .ok ∧ exec .encrypt (zeroExt 7) = .next u ∧ u.err = .ok :=
  ⟨_, _, zeroExt_wf 7, rfl, .inr (.inl (by decide)), rfl, rfl, rfl, rfl⟩
/-- The same message encrypted apart and in place. -/
theorem witness_EncryptIsDeterminedByStreamAndSource :
    ∃ t t', (zeroExt 7).mem.wf ∧ (zeroExt 7).raced = [] ∧ sameOrDisjoint 0x200 0x300 7 ∧ sameOrDisjoint 0x200 0x200 7 ∧
      exec .encrypt (zeroExt 7) = .next t ∧ t.err = .ok ∧ exec .encrypt { zeroExt 7 with dst := 0x200 } = .next t' ∧ t'.err = .ok :=
  ⟨_, _, zeroExt_wf 7, rfl, .inr (.inl (by decide)), .inl rfl, rfl, rfl, rfl, rfl⟩
/-- P1: `INIT`, `ENCRYPT`, `INIT` again, and `ENCRYPT` in place of the result. -/
theorem witness_DecryptUndoesEncrypt :
    ∃ a' t b' v : State, exec (.init 32 8) (zeroExt 7) = .next a' ∧ a'.err = .ok ∧ a'.mem.wf ∧ a'.raced = [] ∧
      sameOrDisjoint a'.src.toNat a'.dst.toNat a'.len.toNat ∧ exec .encrypt a' = .next t ∧ t.err = .ok ∧
      exec (.init 32 8) (zeroExt 7) = .next b' ∧ b'.err = .ok ∧
      (∀ i, i < 7 → ({ t with stream := b'.stream, src := t.dst } : State).mem.read (t.dst.toNat + i) = t.mem.read (a'.dst.toNat + i)) ∧
      exec .encrypt { t with stream := b'.stream, src := t.dst } = .next v ∧ v.err = .ok :=
  ⟨_, _, _, _, rfl, rfl, zeroExt_wf 7, rfl, .inr (.inl (by decide)), rfl, rfl, rfl, rfl, fun _ _ => rfl, rfl, rfl⟩
/-- P2's split, 7 = 3 + 4. -/
theorem witness_EncryptIsResumable :
    ∃ t, (zeroExt 7).mem.wf ∧ (zeroExt 7).plat.wf = true ∧ (zeroExt 7).raced = [] ∧ (zeroExt 7).len.toNat = 3 + 4 ∧
      sameOrDisjoint 0x200 0x300 (3 + 4) ∧ exec .encrypt (zeroExt 7) = .next t ∧ t.err = .ok :=
  ⟨_, zeroExt_wf 7, by decide, rfl, by decide, .inr (.inl (by decide)), rfl, rfl⟩
theorem witness_OnlyInitChangesKeyAndLayout : ∃ t, wrapped.bus = .read 0x10004 4 :: [] ∧ step wrapped = .next t :=
  ⟨_, rfl, rfl⟩
/-- A write to the last operand register. -/
theorem witness_OnlyTheHostWritesOperandRegisters :
    ∃ t, (withTxn fresh (.write 0x10024 4 7)).bus = .write 0x10024 4 7 :: [] ∧ step (withTxn fresh (.write 0x10024 4 7)) = .next t ∧
      resetsEngine (.write 0x10024 4 7) fresh = false := ⟨_, rfl, rfl, rfl⟩
/-- The last byte of memory, and the first address past it. -/
theorem witness_HostMemoryAccess :
    fresh.plat.wf = true ∧ fresh.mem.wf ∧ (0xFFF < fresh.plat.memSize ∧ plainBuffer fresh.plat 0xFFF 1) ∧
      fresh.plat.memSize ≤ 0x1000 :=
  ⟨by decide, by decide, ⟨by decide, plain_of_no_devices rfl _ _⟩, by decide⟩
/-- A contended `ENCRYPT`: another master writes the first source byte and reads the last destination byte, whose source byte it does
not write. -/
theorem witness_ContendedCommandsUpdateTheEngineAlike :
    ∃ t u, (zeroExt 7).Ready ∧ (zeroExt 7).mem.wf ∧ (zeroExt 7).raced = [] ∧
      step (withTxn (zeroExt 7) (.write ((zeroExt 7).plat.regBase + 0x00) 4 0x00000002)) = .next t ∧
      step (withTxn (zeroExt 7) (.contended 0x00000002 [(0x200, 0xFF)] [0x306])) = .next u ∧
      sameOrDisjoint 0x200 0x300 7 ∧ 0x306 ∉ [0x200] ∧ 0x206 ∉ [0x200] :=
  ⟨_, _, zeroExt_ready 7, zeroExt_wf 7, rfl, rfl, rfl, .inr (.inl (by decide)), by decide, by decide⟩
/-- The clauses on `INIT`: in `IETF` another master writes the last byte of the first key word and the first byte of the last nonce
word, in `EXT` it writes neither. -/
theorem witness_ContendedInit :
    (beforeInit.Ready ∧ beforeInit.mem.wf ∧ beforeInit.raced = [] ∧
      ∃ t u, step (withTxn beforeInit (.write (beforeInit.plat.regBase + 0x00) 4 0x00200C01)) = .next t ∧
        step (withTxn beforeInit (.contended 0x00200C01 [(0x103, 0xFF), (0x128, 0xFF)] [])) = .next u ∧
        t.err = .ok ∧ t.stream.layout = .ietf) ∧
    (∃ t u, step (withTxn beforeInit (.write (beforeInit.plat.regBase + 0x00) 4 0x00200801)) = .next t ∧
        step (withTxn beforeInit (.contended 0x00200801 [(0x128, 0xFF)] [])) = .next u ∧
        t.err = .ok ∧ t.stream.layout = .ext) ∧
    (∀ j, j < 4 → beforeInit.keyaddr.toNat + 4 * 1 + j ∉ [0x103, 0x128]) ∧
    (∀ j, j < 4 → beforeInit.nonceaddr.toNat + 4 * 1 + j ∉ [0x103, 0x128]) :=
  ⟨⟨⟨by decide, rfl⟩, by decide, rfl, _, _, rfl, rfl, rfl, rfl⟩, ⟨_, _, rfl, rfl, rfl, rfl⟩, by decide, by decide⟩
/-- The clause on a failing command. -/
theorem witness_ContendedFailure :
    ∃ t u, step (withTxn fresh (.write (fresh.plat.regBase + 0x00) 4 0x001F0C01)) = .next t ∧
      step (withTxn fresh (.contended 0x001F0C01 [(0x100, 0xFF)] [])) = .next u ∧ t.err ≠ .ok :=
  ⟨_, _, rfl, rfl, by decide⟩
theorem witness_ResetInput : (zeroExt 7).plat.wf = true ∧ ({ zeroExt 7 with inReset := true } : State).inReset = true := by
  decide
/-- Both clauses: an `ENCRYPT` over plain memory, and one with a device at the last byte of its source. -/
theorem witness_ResetDuringACommand :
    ((zeroExt 7).Ready ∧ (zeroExt 7).mem.wf ∧ commandBuffers 0x00000002 (zeroExt 7) = [(0x200, 7), (0x300, 7)] ∧
      (∀ b n, (b, n) ∈ commandBuffers 0x00000002 (zeroExt 7) → plainBuffer (zeroExt 7).plat b n)) ∧
    (({ zeroExt 7 with plat := deviceAt 0x206 } : State).Ready ∧
      issueCommand 0x00000002 { zeroExt 7 with plat := deviceAt 0x206, bus := [] } = .refused .sideEffectMemory) :=
  ⟨⟨zeroExt_ready 7, zeroExt_wf 7, rfl, fun _ _ _ => plain_of_no_devices rfl _ _⟩,
    ⟨by show (deviceAt 0x206).wf = true; decide, rfl⟩, rfl⟩
/-- A machine with a transaction waiting, within the invariant. -/
theorem witness_StepKeepsTheInvariant :
    ∃ t, (withTxn fresh (.write 0x10000 4 0x00200801)).Inv ∧ step (withTxn fresh (.write 0x10000 4 0x00200801)) = .next t :=
  ⟨_, fresh_inv, rfl⟩

end Sys2Proof.Tests
end

