-- ==== Sys2Proof/Proofs/LittleEndian.lean ====
section
/-! PROOFS. `LE32` and `SER` (R10): each byte of the word `LE32` builds is the byte it was built from, and a word is the
`LE32` of its own bytes. Both are read off bit by bit, from the bits of `LE32` and of a byte of a word. -/

namespace Sys2Proof.Machine

/-- Byte `j` of `LE32(b0, b1, b2, b3)` is the `j`th of the four (R10). -/
theorem byteOf_le32 (b0 b1 b2 b3 : Byte) (j : Fin 4) : byteOf (le32 b0 b1 b2 b3) j = [b0, b1, b2, b3][j] := by
  refine BitVec.eq_of_getLsbD_eq fun i hi => ?_
  rw [getLsbD_byteOf _ _ hi, getLsbD_le32 _ _ _ _ (by omega)]
  match j with
  | 0 => simp [hi]
  | 1 => simp [show 8 + i < 16 by omega]
  | 2 => simp [show ¬ 16 + i < 8 by omega, show ¬ 16 + i < 16 by omega, show 16 + i < 24 by omega]
  | 3 => simp [show ¬ 24 + i < 8 by omega, show ¬ 24 + i < 16 by omega]

/-- `SER` undoes `LE32` (R10). -/
@[simp] theorem ser_le32 (b0 b1 b2 b3 : Byte) : ser (le32 b0 b1 b2 b3) = [b0, b1, b2, b3] := by
  have hbyte := byteOf_le32 b0 b1 b2 b3
  simpa [ser] using And.intro (hbyte 0) ⟨hbyte 1, hbyte 2, hbyte 3⟩

/-- `LE32` undoes `SER` (R10). -/
@[simp] theorem le32_byteOf (w : Word) : le32 (byteOf w 0) (byteOf w 1) (byteOf w 2) (byteOf w 3) = w := by
  refine BitVec.eq_of_getLsbD_eq fun i hi => ?_
  rw [getLsbD_le32 _ _ _ _ hi]
  split_ifs with h8 h16 h24
  · rw [getLsbD_byteOf w 0 h8]; congr 1; omega
  · rw [getLsbD_byteOf w 1 (by omega)]; congr 1; omega
  · rw [getLsbD_byteOf w 2 (by omega)]; congr 1; omega
  · rw [getLsbD_byteOf w 3 (by omega)]; congr 1; omega

/-- Settles O14: the two shapes are the definitions of `LE32` and `SER`, and each function undoes the other. -/
theorem littleEndianWords : Obligations.LittleEndianWords :=
  ⟨fun b0 b1 b2 b3 => ⟨rfl, ser_le32 b0 b1 b2 b3⟩, fun w => ⟨rfl, le32_byteOf w⟩⟩

end Sys2Proof.Machine
end

