-- ==== Sys2Proof/Proofs/Invariant.lean ====
section
/-! PROOFS. The invariant (R37, R41, R50). Its one idea: the state words before the last counter increment are the words
the increment began from, so a refill leaves in `KBUF` the block of exactly those words. The rest says that each
case of `ExecCase` and `PerformCase` keeps memory's form and the stream's. -/

namespace Sys2Proof.Machine

/-! ## The words before the last counter increment -/

theorem previousWords_low (carry : Bool) (st : Stream) : (previousWords carry st)[12] = st.S[12] - 1#32 := by
  unfold previousWords
  dsimp only
  split <;> simp

theorem previousWords_high (carry : Bool) (st : Stream) :
    (previousWords carry st)[13] =
      if st.S[12] = 0#32 ∧ (st.layout = .ext ∨ carry = true) then st.S[13] - 1#32 else st.S[13] := by
  unfold previousWords
  dsimp only
  split <;> simp

theorem previousWords_other (carry : Bool) (st : Stream) (i : Nat) (hi : i < 16) (h12 : i ≠ 12) (h13 : i ≠ 13) :
    (previousWords carry st)[i] = st.S[i] := by
  unfold previousWords
  dsimp only
  split <;> simp [Ne.symm h12, Ne.symm h13]

/-- The words before an increment are the words it began from (R41, R150). -/
theorem previousWords_counterIncrement (carry : Bool) (st : Stream) :
    previousWords carry (counterIncrement carry st) = st.S := by
  refine Vector.ext fun i hi => ?_
  by_cases h12 : i = 12
  · subst h12
    rw [previousWords_low, counterIncrement_low, BitVec.add_sub_cancel]
  by_cases h13 : i = 13
  · subst h13
    rw [previousWords_high, counterIncrement_low, counterIncrement_layout, counterIncrement_high]
    split
    · exact BitVec.add_sub_cancel _ _
    · rfl
  · rw [previousWords_other carry _ i hi h12 h13, counterIncrement_other carry st i hi h12 h13]

/-- A refill is one increment (R154, R161). -/
theorem previousWords_refill (carry : Bool) (st : Stream) : previousWords carry (refill carry st) = st.S :=
  previousWords_counterIncrement carry { st with kbuf := block st.S }

theorem previousWords_nextKeystreamByte_fresh {carry : Bool} {st : Stream} (h : st.kpos = 0#6) :
    previousWords carry (nextKeystreamByte carry st).2 = st.S := by
  rw [nextKeystreamByte_fresh h]
  exact previousWords_refill carry st

theorem previousWords_nextKeystreamByte_buffered {carry : Bool} {st : Stream} (h : st.kpos ≠ 0#6) :
    previousWords carry (nextKeystreamByte carry st).2 = previousWords carry st := by
  rw [nextKeystreamByte_buffered h]
  rfl

/-! ## The stream -/

/-- What `State.StreamOk` asks of an initialised stream: the constants stand, and a buffered block is the one generated with
the counter value before the present one (R41). -/
def Stream.Live (carry : Bool) (st : Stream) : Prop :=
  constantsHold st.S ∧ (st.kpos ≠ 0#6 → st.kbuf = block (previousWords carry st))

theorem State.streamOk_iff (s : State) :
    s.StreamOk ↔ (s.initd = false → s.stream = Stream.reset) ∧ (s.initd = true → s.stream.Live s.plat.ietfWrapCarry) :=
  Iff.rfl

theorem constantsHold_congr {S S' : Words} (h : ∀ i (hi : i < 16), i ≠ 12 → i ≠ 13 → S'[i] = S[i])
    (hS : constantsHold S) : constantsHold S' := by
  obtain ⟨h0, h1, h2, h3⟩ := hS
  exact ⟨(h 0 (by decide) (by decide) (by decide)).trans h0, (h 1 (by decide) (by decide) (by decide)).trans h1,
    (h 2 (by decide) (by decide) (by decide)).trans h2, (h 3 (by decide) (by decide) (by decide)).trans h3⟩

/-- Taking one keystream byte keeps a stream live: a refill buffers the block of the words before its increment, and a
byte from the buffer leaves words and block alone. -/
theorem nextKeystreamByte_live {carry : Bool} {st : Stream} (h : st.Live carry) :
    (nextKeystreamByte carry st).2.Live carry := by
  obtain ⟨hconst, hbuf⟩ := h
  refine ⟨constantsHold_congr (nextKeystreamByte_other carry st) hconst, fun _ => ?_⟩
  by_cases hk : st.kpos = 0#6
  · rw [previousWords_nextKeystreamByte_fresh hk, nextKeystreamByte_fresh hk]
    exact refill_kbuf carry st
  · rw [previousWords_nextKeystreamByte_buffered hk, nextKeystreamByte_buffered hk]
    exact hbuf hk

theorem takeKeystream_live {carry : Bool} {st : Stream} (h : st.Live carry) (n : Nat) :
    (takeKeystream carry n st).2.Live carry :=
  takeKeystream_keeps carry (Stream.Live carry) (fun _ => nextKeystreamByte_live) n h

/-- A new stream is live: its constants are laid down and nothing is buffered (R121, R125). -/
theorem initStream_live (carry : Bool) (nlen : Nat) (s : State) : (initStream nlen s).Live carry :=
  ⟨initWords_constants _ _ _ _, fun h => absurd rfl h⟩

theorem streamOk_of_live {s : State} (hi : s.initd = true) (h : s.stream.Live s.plat.ietfWrapCarry) : s.StreamOk :=
  s.streamOk_iff.2 ⟨fun hf => by simp [hi] at hf, fun _ => h⟩

/-- A freshly reset stream meets the invariant (R40). -/
theorem streamOk_of_reset {s : State} (hi : s.initd = false) (h : s.stream = Stream.reset) : s.StreamOk :=
  s.streamOk_iff.2 ⟨fun _ => h, fun ht => by simp [hi] at ht⟩

/-! ## Memory -/

/-- A sequence of bytes written inside memory, or an empty one, keeps memory's form and bound (R50). -/
theorem memoryOk_of_writeBytes {s t : State} {a : Nat} {bs : List Byte} (hs : s.MemoryOk)
    (hmem : t.mem = s.mem.writeBytes a bs) (hplat : t.plat = s.plat)
    (hbs : bs.length = 0 ∨ a + bs.length ≤ s.plat.memSize) : t.MemoryOk := by
  obtain ⟨hwf, hlt⟩ := hs
  rw [State.MemoryOk, hmem, hplat]
  refine ⟨Memory.wf_writeBytes hwf a bs, ?_⟩
  rcases hbs with hempty | hbound
  · rw [List.eq_nil_of_length_eq_zero hempty]
    exact hlt
  · exact Memory.bounded_writeBytes hlt hbound

/-- Other masters' writes keep memory's form and bound, wherever they land (R64, R237). -/
theorem settleRace_memoryOk {stored : Option (Nat × Nat)} {writes : List Host.Cell} {reads : List Nat} {s t : State}
    (ht : t.MemoryOk) (hw : ∀ c ∈ writes, c.1 < t.plat.memSize) : (settleRace stored writes reads s t).MemoryOk := by
  obtain ⟨hwf, hlt⟩ := ht
  refine ⟨Memory.wf_writeCells hwf _, Memory.bounded_writeCells hlt fun c hc => ?_⟩
  have haddr : c.1 ∈ writes.map (·.1) := landedWrites_addresses stored t.draws 0 writes ▸ List.mem_map_of_mem hc
  obtain ⟨d, hd, hdc⟩ := List.mem_map.1 haddr
  exact hdc ▸ hw d hd

/-! ## One command -/

theorem exec_memoryOk {i : Instr} {s t : State} (h : exec i s = .next t) (hs : s.MemoryOk) : t.MemoryOk := by
  cases exec_cases h with
  | error | nop | empty | init => exact hs
  | encrypt _ _ _ _ hd => exact memoryOk_of_writeBytes hs rfl rfl (.inr (by simpa using hd))
  | keystream _ _ _ hd => exact memoryOk_of_writeBytes hs rfl rfl (.inr (by simpa [stateKeystream] using hd))

theorem exec_streamOk {i : Instr} {s t : State} (h : exec i s = .next t) (hs : s.StreamOk) : t.StreamOk := by
  cases exec_cases h with
  | error | nop | empty => exact hs
  | init => exact streamOk_of_live rfl (initStream_live _ _ _)
  | encrypt _ hi | keystream _ hi =>
    exact streamOk_of_live hi (takeKeystream_live ((s.streamOk_iff.1 hs).2 hi) _)

theorem issueCommand_memoryOk {w : Word} {s t : State} (h : issueCommand w s = .next t) (hs : s.MemoryOk) :
    t.MemoryOk := by
  cases issueCommand_cases h with
  | illegal => exact hs
  | legal _ _ _ he => exact exec_memoryOk he hs

theorem issueCommand_streamOk {w : Word} {s t : State} (h : issueCommand w s = .next t) (hs : s.StreamOk) :
    t.StreamOk := by
  cases issueCommand_cases h with
  | illegal => exact hs
  | legal _ _ _ he => exact exec_streamOk he hs

/-! ## One transaction -/

theorem perform_keeps_inv {x : Txn} {s t : State} (h : perform x s = .next t) (hs : s.Inv) : t.Inv := by
  obtain ⟨hmem, hstream, hraced⟩ := hs
  cases perform_cases h with
  | silent | operand => exact ⟨hmem, hstream, hraced⟩
  | command w _ _ _ hi =>
    exact ⟨issueCommand_memoryOk hi hmem, issueCommand_streamOk hi hstream,
      (issueCommand_surroundings hi).raced.trans hraced⟩
  | memory a v _ ha => exact ⟨⟨Memory.wf_write hmem.1 a v, Memory.bounded_write hmem.2 ha⟩, hstream, hraced⟩
  | quiet _ _ _ _ hw => exact ⟨settleRace_memoryOk hmem hw, hstream, rfl⟩
  | race w writes _ u _ hw _ hi =>
    have hplat : u.plat = s.plat := (issueCommand_surroundings hi).plat
    have humem : u.MemoryOk := issueCommand_memoryOk hi hmem
    have hustream : u.StreamOk := issueCommand_streamOk hi hstream
    exact ⟨settleRace_memoryOk humem (hplat ▸ hw), hustream, rfl⟩
  | reset => exact ⟨hmem, streamOk_of_reset rfl rfl, hraced⟩
  | interrupted w =>
    have hbuf := interruptedBuffer_bound w s
    exact ⟨memoryOk_of_writeBytes hmem rfl rfl (by simpa using hbuf), streamOk_of_reset rfl rfl, hraced⟩

/-! ## The obligations -/

/-- Settles O52: at reset no byte is listed and the stream is the reset stream. -/
theorem invariantAtReset : Obligations.InvariantAtReset :=
  ⟨⟨Memory.wf_nil, fun _ hc => absurd hc List.not_mem_nil⟩, streamOk_of_reset rfl rfl, rfl⟩

/-- Settles O53: an idle step changes nothing, and every transaction keeps the invariant. -/
theorem stepKeepsTheInvariant : Obligations.StepKeepsTheInvariant := by
  intro s t hs h
  match hbus : s.bus with
  | [] =>
    have hst : s = t := by simpa [step, hbus] using h
    exact hst ▸ hs
  | x :: rest => exact perform_keeps_inv (step_next hbus h).2 hs

end Sys2Proof.Machine
end

