-- ==== Sys2Proof/Proofs/KeyAndLayout.lean ====
section
/-! PROOFS. What only `INIT` and a reset change (R20, R22, R24 to R27): the sequencer moves words 12 and 13 and nothing
else of the key, the nonce and the layout, so every other command and every other transaction keeps them. -/

namespace Sys2Proof.Machine

/-! ## What stays through a stream's life -/

/-- `t` has the layout, the `INITD` flag and the state words of `s`, words 12 and 13 left out. -/
structure SameKeyAndLayout (s t : State) : Prop where
  layout : t.stream.layout = s.stream.layout
  initd : t.initd = s.initd
  words : ∀ j : Fin 16, j ≠ 12 → j ≠ 13 → t.stream.S[j] = s.stream.S[j]

theorem sameKeyAndLayout_of_eq {s t : State} (hs : t.stream = s.stream) (hi : t.initd = s.initd) :
    SameKeyAndLayout s t := ⟨by rw [hs], hi, fun _ _ _ => by rw [hs]⟩

/-- Taking keystream bytes keeps them (R20, R26). -/
theorem sameKeyAndLayout_of_takeKeystream {s t : State} (hi : t.initd = s.initd)
    (h : t.stream = (stateKeystream s s.len.toNat).2) : SameKeyAndLayout s t where
  layout := by rw [h]; exact takeKeystream_layout _ _ _
  initd := hi
  words j h12 h13 := by
    rw [h]
    exact takeKeystream_other _ _ _ j.val j.isLt (fun e => h12 (Fin.ext e)) (fun e => h13 (Fin.ext e))

/-- A command that is no successful `INIT` keeps them. -/
theorem exec_sameKeyAndLayout {i : Instr} {s t : State} (h : exec i s = .next t) :
    ((∃ klen nlen, i = .init klen nlen) ∧ t.err = .ok) ∨ SameKeyAndLayout s t := by
  cases exec_cases h with
  | error | nop | empty => exact .inr (sameKeyAndLayout_of_eq rfl rfl)
  | init n hi => exact .inl ⟨⟨32, n, hi⟩, rfl⟩
  | encrypt | keystream => exact .inr (sameKeyAndLayout_of_takeKeystream rfl rfl)

theorem issueCommand_sameKeyAndLayout {w : Word} {s t : State} (h : issueCommand w s = .next t) :
    ((∃ klen nlen, decode w = .ok (.init klen nlen)) ∧ t.err = .ok) ∨ SameKeyAndLayout s t := by
  cases issueCommand_cases h with
  | illegal => exact .inr (sameKeyAndLayout_of_eq rfl rfl)
  | legal i _ hd he =>
    rcases exec_sameKeyAndLayout he with ⟨⟨klen, nlen, hinit⟩, hok⟩ | hsame
    · exact .inl ⟨⟨klen, nlen, hinit ▸ hd⟩, hok⟩
    · exact .inr hsame

/-! ## One transaction -/

/-- No transaction changes the platform or the transactions that wait behind it. -/
theorem perform_plat_bus {x : Txn} {s t : State} (h : perform x s = .next t) : t.plat = s.plat ∧ t.bus = s.bus := by
  cases perform_cases h with
  | silent | operand | memory | quiet | reset | interrupted => exact ⟨rfl, rfl⟩
  | command _ _ _ _ hi | race _ _ _ _ _ _ _ hi =>
    have hsur := issueCommand_surroundings hi
    exact ⟨hsur.plat, hsur.bus⟩

theorem perform_sameKeyAndLayout {x : Txn} {s t : State} (h : perform x s = .next t) :
    resetsEngine x s = true ∨ initialises x s t ∨ SameKeyAndLayout s t := by
  cases perform_cases h with
  | silent | operand | memory | quiet => exact .inr (.inr (sameKeyAndLayout_of_eq rfl rfl))
  | command w _ _ hc hi =>
    rcases issueCommand_sameKeyAndLayout hi with ⟨⟨klen, nlen, hd⟩, hok⟩ | hsame
    · exact .inr (.inl ⟨w, klen, nlen, hc, hd, hok⟩)
    · exact .inr (.inr hsame)
  | race w _ _ u _ _ hc hi =>
    rcases issueCommand_sameKeyAndLayout hi with ⟨⟨klen, nlen, hd⟩, hok⟩ | ⟨hlayout, hinitd, hwords⟩
    · exact .inr (.inl ⟨w, klen, nlen, hc, hd, hok⟩)
    · exact .inr (.inr ⟨hlayout, hinitd, hwords⟩)
  | reset _ hr | interrupted _ _ _ hr => exact .inl hr

/-! ## The storing commands -/

/-- A byte outside the destination buffer reads as before (R51). -/
theorem exec_read_outside {i : Instr} {s t : State} (hi : i = .encrypt ∨ i = .keystream) (hwf : s.mem.wf)
    (h : exec i s = .next t) {a b n : Nat} (hbuf : destBuffer i s = some (b, n)) (ha : a < b ∨ b + n ≤ a) :
    t.mem.read a = s.mem.read a := by
  obtain ⟨rfl, rfl⟩ : s.dst.toNat = b ∧ s.len.toNat = n := by
    rcases hi with rfl | rfl <;> simpa [destBuffer] using hbuf
  cases exec_cases h with
  | error | nop | empty | init => rfl
  | encrypt => exact Memory.read_writeBytes_outside hwf (by simpa using ha)
  | keystream => exact Memory.read_writeBytes_outside hwf (by simpa [stateKeystream] using ha)

/-! ## The obligations -/

/-- Settles O39: no command writes the surroundings, a command that is no `INIT` keeps the key and the layout, and its
bytes land in the destination buffer. -/
theorem storingCommandsFrame : Obligations.StoringCommandsFrame := by
  intro i s t hi hwf h
  have hsur := exec_surroundings h
  have hsame : SameKeyAndLayout s t := by
    rcases exec_sameKeyAndLayout h with ⟨⟨klen, nlen, hinit⟩, -⟩ | hsame
    · simp [hinit] at hi
    · exact hsame
  exact ⟨hsur.src, hsur.dst, hsur.len, hsur.keyaddr, hsur.nonceaddr, hsur.ctrinit, hsame.initd, hsame.layout,
    hsame.words, hsur.inReset, hsur.plat, hsur.bus, hsur.rdata, hsur.peerData, hsur.raced,
    fun _ _ _ hbuf ha => exec_read_outside hi hwf h hbuf ha⟩

/-- Settles O45: by the ways a transaction is performed. -/
theorem onlyInitChangesKeyAndLayout : Obligations.OnlyInitChangesKeyAndLayout := by
  intro s t x rest hbus h
  have hperform := (step_next hbus h).2
  obtain ⟨hplat, hrest⟩ := perform_plat_bus hperform
  refine ⟨hplat, hrest, ?_⟩
  rcases perform_sameKeyAndLayout hperform with hreset | hinit | ⟨hlayout, hinitd, hwords⟩
  · exact .inl hreset
  · exact .inr (.inl hinit)
  · exact .inr (.inr ⟨hlayout, hinitd, hwords⟩)

end Sys2Proof.Machine
end

