-- ==== Sys2Proof/Proofs/Status.lean ====
section
/-! PROOFS. `STATUS` and the result codes (R35, R200). The fields are read off the word bit by bit; which command raises
which error is said once, for each command, as the list of codes it can end with. -/

namespace Sys2Proof.Machine

/-! ## The bits of the status word -/

theorem getLsbD_flagWord (b : Bool) (i : Nat) : (flagWord b).getLsbD i = (decide (i = 0) && b) := by
  cases i <;> cases b <;> simp [flagWord]

/-- Bits 3 to 0 of `STATUS` are the flags (R35). -/
theorem getLsbD_statusWord_flags (s : State) {i : Nat} (hi : i < 4) :
    (statusWord s).getLsbD i =
      (decide (i = 2) && s.stream.wrap || decide (i = 1) && layoutBit s.stream.layout || decide (i = 0) && s.initd) := by
  simp only [statusWord, BitVec.getLsbD_or, BitVec.getLsbD_shiftLeft, getLsbD_flagWord]
  interval_cases i <;> simp

/-- The bits above them are those of `ERR` (R35). -/
theorem getLsbD_statusWord_err (s : State) {i : Nat} (hi : i < 28) :
    (statusWord s).getLsbD (4 + i) = (errNumber s.err).getLsbD i := by
  simp only [statusWord, BitVec.getLsbD_or, BitVec.getLsbD_shiftLeft, getLsbD_flagWord]
  simp [show 4 + i < 32 by omega, show i < 32 by omega, show 4 + i - 2 ≠ 0 by omega]

theorem layoutBit_eq_true (l : Layout) : layoutBit l = true ↔ l = .ext := by cases l <;> simp [layoutBit]

/-- `ERR` stands in bits 7 to 4. -/
theorem statusWord_err (s : State) : (statusWord s).extractLsb' 4 4 = errNumber s.err := by
  refine BitVec.eq_of_getLsbD_eq fun i hi => ?_
  rw [BitVec.getLsbD_extractLsb', getLsbD_statusWord_err s (by omega)]
  simp [hi]

/-- Bits 31 to 8 are 0: `ERR` has four bits. -/
theorem statusWord_high (s : State) : (statusWord s).extractLsb' 8 24 = 0 := by
  refine BitVec.eq_of_getLsbD_eq fun i hi => ?_
  rw [BitVec.getLsbD_extractLsb', show 8 + i = 4 + (4 + i) by omega, getLsbD_statusWord_err s (by omega),
    BitVec.getLsbD_of_ge _ _ (by omega)]
  simp

theorem errNumber_le (e : ErrCode) : (errNumber e).toNat ≤ 5 := by cases e <;> decide

/-! ## Which command raises which error -/

/-- The result codes a command can end with (R202 to R206). -/
def resultCodes : Instr → List ErrCode
  | .nop => [.ok]
  | .init _ _ => [.ok, .invalidKeyLength, .invalidNonceLength, .bufferTooSmall]
  | .encrypt => [.ok, .notInitialized, .bufferTooSmall]
  | .keystream => [.ok, .notInitialized, .bufferTooSmall]

theorem invalidKeyLength_mem_resultCodes (i : Instr) :
    .invalidKeyLength ∈ resultCodes i ↔ ∃ klen nlen, i = .init klen nlen := by cases i <;> simp [resultCodes]

theorem invalidNonceLength_mem_resultCodes (i : Instr) :
    .invalidNonceLength ∈ resultCodes i ↔ ∃ klen nlen, i = .init klen nlen := by cases i <;> simp [resultCodes]

theorem bufferTooSmall_mem_resultCodes (i : Instr) :
    .bufferTooSmall ∈ resultCodes i ↔ (∃ klen nlen, i = .init klen nlen) ∨ i = .encrypt ∨ i = .keystream := by
  cases i <;> simp [resultCodes]

theorem notInitialized_mem_resultCodes (i : Instr) :
    .notInitialized ∈ resultCodes i ↔ i = .encrypt ∨ i = .keystream := by cases i <;> simp [resultCodes]

theorem illegalCommand_notMem_resultCodes (i : Instr) : .illegalCommand ∉ resultCodes i := by
  cases i <;> simp [resultCodes]

/-- Each branch of a command's checks ends in one of its codes. -/
theorem exec_err_mem_resultCodes {i : Instr} {s t : State} (h : exec i s = .next t) : t.err ∈ resultCodes i := by
  cases i with
  | nop => cases h; simp [resultCodes]
  | init =>
    simp only [exec, execInit, raiseError] at h
    split_ifs at h <;> cases h <;> simp [resultCodes]
  | encrypt =>
    simp only [exec, execEncrypt, raiseError] at h
    split_ifs at h <;> cases h <;> simp [resultCodes]
  | keystream =>
    simp only [exec, execKeystream, raiseError] at h
    split_ifs at h <;> cases h <;> simp [resultCodes]

/-- An illegal word ends with `ILLEGAL_COMMAND`, a legal one with a code of its command (R105, R202). -/
theorem issueCommand_err {w : Word} {s t : State} (h : issueCommand w s = .next t) :
    (∃ e, decode w = .error e ∧ t.err = .illegalCommand) ∨ ∃ i, decode w = .ok i ∧ t.err ∈ resultCodes i := by
  cases issueCommand_cases h with
  | illegal e hd => exact .inl ⟨e, hd, rfl⟩
  | legal i _ hd he => exact .inr ⟨i, hd, exec_err_mem_resultCodes he⟩

theorem issueCommand_illegalCommand_iff {w : Word} {s t : State} (h : issueCommand w s = .next t) :
    t.err = .illegalCommand ↔ ∀ i, decode w ≠ .ok i := by
  rcases issueCommand_err h with ⟨e, hd, herr⟩ | ⟨i, hd, herr⟩
  · simp [hd, herr]
  · have hne : t.err ≠ .illegalCommand := fun he => illegalCommand_notMem_resultCodes i (he ▸ herr)
    simp [hd, hne]

/-- A code other than `ILLEGAL_COMMAND` is one of the codes of the command that the word decodes to. -/
theorem issueCommand_err_legal {w : Word} {s t : State} {e : ErrCode} (h : issueCommand w s = .next t) (he : t.err = e)
    (hne : e ≠ .illegalCommand) : ∃ i, decode w = .ok i ∧ e ∈ resultCodes i := by
  subst he
  rcases issueCommand_err h with ⟨_, _, herr⟩ | hlegal
  · exact absurd herr hne
  · exact hlegal

/-! ## The obligation -/

/-- Settles O13: the fields by the bits of the word, the errors by the codes of the decoded command. -/
theorem statusFields : Obligations.StatusFields := by
  intro s
  have flags := fun i hi => getLsbD_statusWord_flags s (i := i) hi
  refine ⟨by simpa using flags 0, by rw [flags 1 (by decide)]; simp [layoutBit_eq_true], by simpa using flags 2,
    by simpa using flags 3, statusWord_err s, rfl, rfl, rfl, rfl, rfl, rfl, errNumber_le s.err,
    fun w t h => ⟨?_, ?_, ?_, issueCommand_illegalCommand_iff h⟩, statusWord_high s,
    fun hready v => ⟨step_write_window v hready (by decide), step_read_window hready (by decide)⟩, rfl⟩
  · rintro (he | he)
    · obtain ⟨i, hd, hmem⟩ := issueCommand_err_legal h he (by decide)
      simpa [hd] using (invalidKeyLength_mem_resultCodes i).1 hmem
    · obtain ⟨i, hd, hmem⟩ := issueCommand_err_legal h he (by decide)
      simpa [hd] using (invalidNonceLength_mem_resultCodes i).1 hmem
  · intro he
    obtain ⟨i, hd, hmem⟩ := issueCommand_err_legal h he (by decide)
    simpa [hd] using (bufferTooSmall_mem_resultCodes i).1 hmem
  · intro he
    obtain ⟨i, hd, hmem⟩ := issueCommand_err_legal h he (by decide)
    simpa [hd] using (notInitialized_mem_resultCodes i).1 hmem

end Sys2Proof.Machine
end

