-- ==== Sys2Proof/Proofs/SharedMemory.lean ====
section
/-! PROOFS. Shared memory as hosts and commands meet it (R50, R51, R57, R61, R63): which bytes are plain memory, what a host's
access does to one, that a buffer over any other byte is refused, and that `NOP` and `INIT` store nothing. -/

namespace Sys2Proof.Machine

/-! ## Plain memory -/

/-- A byte is plain memory iff it exists (R50) and has no side effects (R57). -/
theorem plainMemory_iff (p : Platform) (a : Nat) : plainMemory p a = true ↔ a < p.memSize ∧ plainBuffer p a 1 := by
  rw [plainMemory, Bool.and_eq_true, Bool.not_eq_true', bufferValid_iff, touchesDevice_eq_false, Nat.succ_le_iff]

/-- Two buffers that are not both plain: one of them covers an address with side effects (R57). -/
theorem touchesDevice_or_of_not_plainBuffer {p : Platform} {a n b m : Nat}
    (h : ¬ (plainBuffer p a n ∧ plainBuffer p b m)) : (touchesDevice p a n || touchesDevice p b m) = true := by
  rw [← touchesDevice_eq_false, ← touchesDevice_eq_false, ← Bool.or_eq_false_iff] at h
  exact Bool.not_eq_false _ ▸ h

/-- An access past the end of memory faults (assumption log 5). -/
theorem badMemory_past_end {p : Platform} {a : Nat} (h : p.memSize ≤ a) : badMemory p a = .fault (.noSuchMemory a) :=
  if_neg fun hv => by rw [bufferValid_iff] at hv; omega

theorem plainMemory_past_end {p : Platform} {a : Nat} (h : p.memSize ≤ a) : plainMemory p a = false :=
  Bool.eq_false_iff.2 fun hp => absurd (plainMemory_lt hp) (Nat.not_lt.2 h)

/-! ## A host's access to memory -/

section
variable {s : State} {a : Nat}

theorem step_memWrite_plain (v : Byte) (hp : s.plat.wf = true) (ha : plainMemory s.plat a = true) :
    step (withTxn s (.memWrite a v)) = .next { s with bus := [], mem := s.mem.write a v } := by
  rw [step_withTxn _ hp]
  exact if_pos ha

theorem step_memRead_plain (hp : s.plat.wf = true) (ha : plainMemory s.plat a = true) :
    step (withTxn s (.memRead a)) = .next { s with bus := [], rdata := (s.mem.read a).zeroExtend 32 } := by
  rw [step_withTxn _ hp]
  exact if_pos ha

theorem step_memWrite_past_end (v : Byte) (hp : s.plat.wf = true) (ha : s.plat.memSize ≤ a) :
    step (withTxn s (.memWrite a v)) = .fault (.noSuchMemory a) := by
  rw [step_withTxn _ hp, ← badMemory_past_end ha]
  exact if_neg (by simp [plainMemory_past_end ha])

theorem step_memRead_past_end (hp : s.plat.wf = true) (ha : s.plat.memSize ≤ a) :
    step (withTxn s (.memRead a)) = .fault (.noSuchMemory a) := by
  rw [step_withTxn _ hp, ← badMemory_past_end ha]
  exact if_neg (by simp [plainMemory_past_end ha])

end

/-! ## Buffers over memory with side effects -/

/-- `INIT` is refused where its key or its nonce covers such memory (R57). -/
theorem execInit_refused {s : State} {nlen : Nat} (hn : nlen = 8 ∨ nlen = 12)
    (hk : s.keyaddr.toNat + 32 ≤ s.plat.memSize) (hv : s.nonceaddr.toNat + nlen ≤ s.plat.memSize)
    (hplain : ¬ (plainBuffer s.plat s.keyaddr.toNat 32 ∧ plainBuffer s.plat s.nonceaddr.toNat nlen)) :
    execInit 32 nlen s = .refused .sideEffectMemory := by
  have hlen : ¬ (nlen ≠ 8 ∧ nlen ≠ 12) := by omega
  rw [← bufferValid_iff] at hk hv
  simp [execInit, hlen, hk, hv, touchesDevice_or_of_not_plainBuffer hplain]

/-- `ENCRYPT` is refused where its source or its destination does. -/
theorem execEncrypt_refused {s : State} (h0 : s.initd = true) (hl : s.len ≠ 0#32)
    (hs : s.src.toNat + s.len.toNat ≤ s.plat.memSize) (hd : s.dst.toNat + s.len.toNat ≤ s.plat.memSize)
    (hplain : ¬ (plainBuffer s.plat s.src.toNat s.len.toNat ∧ plainBuffer s.plat s.dst.toNat s.len.toNat)) :
    execEncrypt s = .refused .sideEffectMemory := by
  rw [← bufferValid_iff] at hs hd
  simp [execEncrypt, h0, hl, hs, hd, touchesDevice_or_of_not_plainBuffer hplain]

/-- `KEYSTREAM` is refused where its destination does. -/
theorem execKeystream_refused {s : State} (h0 : s.initd = true) (hl : s.len ≠ 0#32)
    (hd : s.dst.toNat + s.len.toNat ≤ s.plat.memSize)
    (hplain : ¬ plainBuffer s.plat s.dst.toNat s.len.toNat) :
    execKeystream s = .refused .sideEffectMemory := by
  rw [← bufferValid_iff] at hd
  rw [← touchesDevice_eq_false] at hplain
  simp [execKeystream, h0, hl, hd, hplain]

/-! ## The commands that store nothing -/

/-- `NOP` and `INIT` write no memory and draw no free byte (R51). -/
theorem exec_mem_of_not_storing {i : Instr} {s t : State} (hi : i = .nop ∨ ∃ klen nlen, i = .init klen nlen)
    (h : exec i s = .next t) : t.mem = s.mem ∧ t.draws = s.draws := by
  cases exec_cases h with
  | error | nop | empty | init => exact ⟨rfl, rfl⟩
  | encrypt he | keystream he => simp [he] at hi

/-- `NOP` and a failed `INIT` leave the stream as it was (R201). -/
theorem exec_stream_of_not_storing {i : Instr} {s t : State} (hi : i = .nop ∨ ∃ klen nlen, i = .init klen nlen)
    (h : exec i s = .next t) (hk : i = .nop ∨ t.err ≠ .ok) : t.stream = s.stream ∧ t.initd = s.initd := by
  cases exec_cases h with
  | error | nop | empty => exact ⟨rfl, rfl⟩
  | init _ he => simp [he] at hk
  | encrypt he | keystream he => simp [he] at hi

/-! ## The obligations -/

/-- Settles O10: such a platform is not one the spec allows. -/
theorem windowInsideMemoryIsRefused : Obligations.WindowInsideMemoryIsRefused := by
  intro s hbus hwin
  have hwf : s.plat.wf = false := by
    rw [Platform.wf, decide_eq_false (p := s.plat.memSize ≤ s.plat.regBase) (by omega), Bool.and_false]
  obtain ⟨x, rest, hb⟩ := List.exists_cons_of_ne_nil hbus
  simp [step, hb, hwf]

/-- Settles O34: every other check of the command passes, so the one on side effects decides. -/
theorem sideEffectMemoryIsRefused : Obligations.SideEffectMemoryIsRefused := by
  intro s
  have nonzero : 0 < s.len.toNat → s.len ≠ 0#32 := by rintro h hl; simp [hl] at h
  exact ⟨fun _ hn hk hv hplain => execInit_refused hn hk hv hplain,
    fun h0 hl hs hd hplain => execEncrypt_refused h0 (nonzero hl) hs hd hplain,
    fun h0 hl hd hplain => execKeystream_refused h0 (nonzero hl) hd hplain⟩

/-- Settles O40: what no command writes, and what `NOP` and `INIT` do not. -/
theorem nonStoringCommandsFrame : Obligations.NonStoringCommandsFrame := by
  intro i s t hi h
  have hsur := exec_surroundings h
  obtain ⟨hmem, hdraws⟩ := exec_mem_of_not_storing hi h
  exact ⟨hmem, fun a => by rw [hmem], hsur.src, hsur.dst, hsur.len, hsur.keyaddr, hsur.nonceaddr, hsur.ctrinit,
    hsur.inReset, hsur.plat, hsur.bus, hsur.rdata, hsur.peerData, hsur.raced, hdraws, exec_stream_of_not_storing hi h⟩

/-- Settles O47: the memory after the write is the one `Memory.write` gives, and a read of it follows `Memory.read_write`. -/
theorem hostMemoryAccess : Obligations.HostMemoryAccess := by
  intro s a v hp hwf
  refine ⟨fun ha hplain => ?_, fun ha => ⟨step_memWrite_past_end v hp ha, step_memRead_past_end hp ha⟩⟩
  have hbyte : plainMemory s.plat a = true := (plainMemory_iff _ _).2 ⟨ha, hplain⟩
  have hread := Memory.read_write hwf a
  refine ⟨s.mem.write a v, step_memWrite_plain v hp hbyte, by simp [hread], fun b hb => by simp [hread, hb], ?_⟩
  rw [step_memRead_plain (s := { s with mem := s.mem.write a v }) hp hbyte, hread, if_pos rfl]

end Sys2Proof.Machine
end

