-- ==== Sys2Proof/Proofs/Contention.lean ====
section
/-! PROOFS. A command during which other masters access memory (R64, R237). The other masters reach the engine only through
`raced`, and no check of a command looks at that field. So the command ends alike with and without them, but for what it
reads from memory at their addresses: key and nonce words of an `INIT`, source bytes of an `ENCRYPT`. -/

namespace Sys2Proof.Machine

/-! ## What the engine reads -/

theorem unraced_iff (s : State) (a n : Nat) : unraced s a n ↔ ∀ j, j < n → a + j ∉ s.raced := by
  refine ⟨fun h j hj => h _ (by omega) (by omega), fun h x h1 h2 => ?_⟩
  obtain ⟨j, rfl⟩ := Nat.exists_eq_add_of_le h1
  exact h j (by omega)

theorem unraced_of_raced_eq_nil {s : State} (h : s.raced = []) (a n : Nat) : unraced s a n :=
  fun _ _ _ => h ▸ List.not_mem_nil

theorem engineReads_getD (s : State) (k a n : Nat) {m : Nat} (hm : m < n) :
    (engineReads s k a n).getD m 0 = engineRead s (k + m) (a + m) := by
  have hlt : m < (engineReads s k a n).length := by simpa using hm
  rw [List.getD_eq_getElem _ _ hlt, engineReads_getElem]

/-- A word of the bytes the engine reads is that of memory where no other master writes it (R52, R64). -/
theorem leWord_engineReads {s : State} {k a n i : Nat} (hi : 4 * i + 4 ≤ n) (h : unraced s (a + 4 * i) 4) :
    leWord (engineReads s k a n) i = memWord s (a + 4 * i) := by
  have hbyte : ∀ j, j < 4 → (engineReads s k a n).getD (4 * i + j) 0 = s.mem.read (a + 4 * i + j) := fun j hj => by
    rw [engineReads_getD s k a n (by omega), ← Nat.add_assoc a, engineRead_plain ((unraced_iff s _ 4).1 h j hj)]
  have hfirst : (engineReads s k a n).getD (4 * i) 0 = s.mem.read (a + 4 * i) := hbyte 0 (by decide)
  rw [leWord, memWord, hfirst, hbyte 1 (by decide), hbyte 2 (by decide), hbyte 3 (by decide)]

/-! ## The words of a new stream -/

theorem initWords_nonce_ietf (key nonce : List Byte) (ctr : Word) (i : Fin 3) :
    (initWords .ietf key nonce ctr)[13 + i.val] = leWord nonce i.val := by fin_cases i <;> rfl

theorem initWords_nonce_ext (key nonce : List Byte) (ctr : Word) (i : Fin 2) :
    (initWords .ext key nonce ctr)[14 + i.val] = leWord nonce i.val := by fin_cases i <;> rfl

/-- Word `i` of the key is that of memory where no other master writes it (R122). -/
theorem initStream_key {s : State} (nlen : Nat) (i : Fin 8) (h : unraced s (s.keyaddr.toNat + 4 * i.val) 4) :
    (initStream nlen s).S[4 + i.val] = memWord s (s.keyaddr.toNat + 4 * i.val) :=
  (initWords_key _ _ _ _ i).trans (leWord_engineReads (by omega) h)

/-- The same of word `i` of an `IETF` nonce (R123). -/
theorem initStream_nonce_ietf {s : State} (i : Fin 3) (h : unraced s (s.nonceaddr.toNat + 4 * i.val) 4) :
    (initStream 12 s).S[13 + i.val] = memWord s (s.nonceaddr.toNat + 4 * i.val) :=
  (initWords_nonce_ietf _ _ _ i).trans (leWord_engineReads (by omega) h)

/-- The same of word `i` of an `EXT` nonce (R124). -/
theorem initStream_nonce_ext {s : State} (i : Fin 2) (h : unraced s (s.nonceaddr.toNat + 4 * i.val) 4) :
    (initStream 8 s).S[14 + i.val] = memWord s (s.nonceaddr.toNat + 4 * i.val) :=
  (initWords_nonce_ext _ _ _ i).trans (leWord_engineReads (by omega) h)

theorem initStream_counter (nlen : Nat) (s : State) : (initStream nlen s).S[12] = s.ctrinit := initWords_counter _ _ _ _

/-- The high word of an `EXT` counter begins at 0 (R124). -/
theorem initStream_counter_high (s : State) : (initStream 8 s).S[13] = 0#32 := rfl

/-! ## The bytes ENCRYPT stores -/

/-- A destination byte is its source byte xor its keystream byte (R162), where no other master writes the source byte and the
buffers do not partially overlap. -/
theorem encryptEffect_read_inside {s : State} {i : Nat} (hwf : s.mem.wf) (hi : i < s.len.toNat)
    (hlie : sameOrDisjoint s.src.toNat s.dst.toNat s.len.toNat) (hr : s.src.toNat + i ∉ s.raced) :
    (encryptEffect s).mem.read (s.dst.toNat + i) =
      s.mem.read (s.src.toNat + i) ^^^ (stateKeystream s s.len.toNat).1[i]'(by simpa [stateKeystream] using hi) := by
  rw [encryptEffect_mem, Memory.read_writeBytes_inside hwf (by simpa using hi)]
  simp only [encryptBytes, partialOverlap_eq_false hlie, Bool.false_eq_true, if_false, List.getElem_zipWith, sourceBytes,
    engineReads_getElem, engineRead_plain hr]

theorem encryptEffect_read_outside {s : State} {a : Nat} (hwf : s.mem.wf)
    (ha : a < s.dst.toNat ∨ s.dst.toNat + s.len.toNat ≤ a) : (encryptEffect s).mem.read a = s.mem.read a :=
  Memory.read_writeBytes_outside hwf (by simpa using ha)

/-! ## A command with and without other masters -/

/-- The state in which a command runs while other masters write the addresses `as`. -/
abbrev State.withRaced (s : State) (as : List Nat) : State := { s with raced := as }

/-- How a command ends without the other masters and with them: the same, or with the effect of each state's own reads. -/
inductive RacedCase (w : Word) (s : State) (as : List Nat) : State → State → Prop where
  | alike (t : State) : RacedCase w s as t (t.withRaced as)
  | init (n : Nat) (hd : decode w = .ok (.init 32 n)) (hn : n = 8 ∨ n = 12) :
      RacedCase w s as (complete { s with stream := initStream n s, initd := true })
        (complete { s.withRaced as with stream := initStream n (s.withRaced as), initd := true })
  | encrypt (hd : decode w = .ok .encrypt) :
      RacedCase w s as (complete (encryptEffect s)) (complete (encryptEffect (s.withRaced as)))

/-- The checks of a command see none of the other masters' accesses, so both runs take the same branch. -/
theorem exec_raced {w : Word} {i : Instr} {s t t' : State} {as : List Nat} (hd : decode w = .ok i)
    (h : exec i s = .next t) (h' : exec i (s.withRaced as) = .next t') : RacedCase w s as t t' := by
  cases i with
  | nop => cases h; cases h'; exact .alike _
  | init klen nlen =>
    simp only [exec, execInit, raiseError, State.withRaced] at h h'
    split_ifs at h h' with hk hn <;> cases h <;> cases h'
    · exact .alike _
    · exact .alike _
    · exact .alike _
    · obtain rfl : klen = 32 := not_not.1 hk
      exact .init nlen hd (by omega)
  | encrypt =>
    simp only [exec, execEncrypt, raiseError, State.withRaced] at h h'
    split_ifs at h h' <;> cases h <;> cases h'
    · exact .alike _
    · exact .alike _
    · exact .alike _
    · exact .encrypt hd
  | keystream =>
    simp only [exec, execKeystream, raiseError, State.withRaced] at h h'
    split_ifs at h h' <;> cases h <;> cases h' <;> exact .alike _

theorem issueCommand_raced {w : Word} {s t t' : State} {as : List Nat} (h : issueCommand w s = .next t)
    (h' : issueCommand w (s.withRaced as) = .next t') : RacedCase w s as t t' := by
  unfold issueCommand at h h'
  split at h
  · rename_i i hd; exact exec_raced hd h (by simpa only [hd] using h')
  · rename_i e hd
    simp only [hd] at h'
    cases h; cases h'; exact .alike _

/-! ## What the two runs agree on -/

/-- The parts of the engine's state that a command leaves the same, whatever other masters write meanwhile. -/
structure SameUpdate (t t' : State) : Prop where
  err : t'.err = t.err
  initd : t'.initd = t.initd
  layout : t'.stream.layout = t.stream.layout
  wrap : t'.stream.wrap = t.stream.wrap
  kpos : t'.stream.kpos = t.stream.kpos
  kbuf : t'.stream.kbuf = t.stream.kbuf
  counter : t'.stream.S[12] = t.stream.S[12]
  constants : ∀ i : Fin 16, i.val < 4 → t'.stream.S[i] = t.stream.S[i]

theorem constantsHold_unique {S S' : Words} (h : constantsHold S) (h' : constantsHold S') (i : Fin 16) (hi : i.val < 4) :
    S'[i] = S[i] := by
  obtain ⟨h0, h1, h2, h3⟩ := h
  obtain ⟨h0', h1', h2', h3'⟩ := h'
  match i, hi with
  | 0, _ => exact h0'.trans h0.symm
  | 1, _ => exact h1'.trans h1.symm
  | 2, _ => exact h2'.trans h2.symm
  | 3, _ => exact h3'.trans h3.symm

section
variable {w : Word} {s t t' : State} {as : List Nat}

/-- A command leaves the same stream, or it is a successful `INIT` and each stream is that of its own reads. -/
theorem RacedCase.stream_cases (h : RacedCase w s as t t') :
    t'.stream = t.stream ∨
    ∃ n, decode w = .ok (.init 32 n) ∧ t.err = .ok ∧ (n = 8 ∨ n = 12) ∧
      t.stream = initStream n s ∧ t'.stream = initStream n (s.withRaced as) := by
  cases h with
  | alike | encrypt => exact .inl rfl
  | init n hd hn => exact .inr ⟨n, hd, rfl, hn, rfl, rfl⟩

theorem RacedCase.sameUpdate (h : RacedCase w s as t t') : SameUpdate t t' := by
  have hflags : t'.err = t.err ∧ t'.initd = t.initd := by cases h <;> exact ⟨rfl, rfl⟩
  obtain ⟨herr, hinitd⟩ := hflags
  rcases h.stream_cases with heq | ⟨n, -, -, -, ht, ht'⟩
  · constructor <;> simp only [heq, herr, hinitd, implies_true]
  · refine ⟨herr, hinitd, by simp [ht, ht'], by simp [ht, ht'], by simp [ht, ht'], by simp [ht, ht'], ?_, ?_⟩
    · rw [ht, ht', initStream_counter, initStream_counter]
    · exact constantsHold_unique (ht ▸ initWords_constants _ _ _ _) (ht' ▸ initWords_constants _ _ _ _)

/-- A command that begins no stream leaves the same stream. -/
theorem RacedCase.stream (h : RacedCase w s as t t')
    (hno : (∀ klen nlen, decode w ≠ .ok (.init klen nlen)) ∨ t.err ≠ .ok) : t'.stream = t.stream := by
  rcases h.stream_cases with heq | ⟨n, hd, herr, -⟩
  · exact heq
  · exact absurd hno (by simp [hd, herr])

/-- A key word of which the other masters write no byte is the same. -/
theorem RacedCase.key (h : RacedCase w s as t t') (hraced : s.raced = []) (i : Fin 8)
    (hi : ∀ j, j < 4 → s.keyaddr.toNat + 4 * i.val + j ∉ as) : t'.stream.S[4 + i.val] = t.stream.S[4 + i.val] := by
  rcases h.stream_cases with heq | ⟨n, -, -, -, ht, ht'⟩
  · rw [heq]
  · rw [ht, ht', initStream_key n i (unraced_of_raced_eq_nil hraced _ 4),
      initStream_key (s := s.withRaced as) n i ((unraced_iff _ _ 4).2 hi)]
    rfl

/-- The same of a nonce word, in `IETF`. -/
theorem RacedCase.nonce_ietf (h : RacedCase w s as t t') (hraced : s.raced = []) (hl : t.stream.layout = .ietf)
    (i : Fin 3) (hi : ∀ j, j < 4 → s.nonceaddr.toNat + 4 * i.val + j ∉ as) :
    t'.stream.S[13 + i.val] = t.stream.S[13 + i.val] := by
  rcases h.stream_cases with heq | ⟨n, -, -, rfl | rfl, ht, ht'⟩
  · rw [heq]
  · simp [ht, layoutOf] at hl
  · rw [ht, ht', initStream_nonce_ietf i (unraced_of_raced_eq_nil hraced _ 4),
      initStream_nonce_ietf (s := s.withRaced as) i ((unraced_iff _ _ 4).2 hi)]
    rfl

/-- And in `EXT`. -/
theorem RacedCase.nonce_ext (h : RacedCase w s as t t') (hraced : s.raced = []) (hl : t.stream.layout = .ext)
    (i : Fin 2) (hi : ∀ j, j < 4 → s.nonceaddr.toNat + 4 * i.val + j ∉ as) :
    t'.stream.S[14 + i.val] = t.stream.S[14 + i.val] := by
  rcases h.stream_cases with heq | ⟨n, -, -, rfl | rfl, ht, ht'⟩
  · rw [heq]
  · rw [ht, ht', initStream_nonce_ext i (unraced_of_raced_eq_nil hraced _ 4),
      initStream_nonce_ext (s := s.withRaced as) i ((unraced_iff _ _ 4).2 hi)]
    rfl
  · simp [ht, layoutOf] at hl

/-- Word 13 of an `EXT` stream is no nonce word: `INIT` sets it to 0 and reads it from nowhere (R124). -/
theorem RacedCase.counter_high (h : RacedCase w s as t t') (hl : t.stream.layout = .ext) :
    t'.stream.S[13] = t.stream.S[13] := by
  rcases h.stream_cases with heq | ⟨n, -, -, rfl | rfl, ht, ht'⟩
  · rw [heq]
  · rw [ht, ht', initStream_counter_high, initStream_counter_high]
  · simp [ht, layoutOf] at hl

/-- A byte of memory is the same, unless `ENCRYPT` stores it from a source byte the other masters write, or between buffers
that partially overlap. -/
theorem RacedCase.read (h : RacedCase w s as t t') (hwf : s.mem.wf) (hraced : s.raced = []) (a : Nat)
    (hsrc : decode w = .ok .encrypt → ∀ i, i < s.len.toNat → a = s.dst.toNat + i →
      s.src.toNat + i ∉ as ∧ sameOrDisjoint s.src.toNat s.dst.toNat s.len.toNat) :
    t'.mem.read a = t.mem.read a := by
  cases h with
  | alike | init => rfl
  | encrypt hd =>
    simp only [complete_mem]
    by_cases ha : a < s.dst.toNat ∨ s.dst.toNat + s.len.toNat ≤ a
    · exact (encryptEffect_read_outside (s := s.withRaced as) hwf ha).trans (encryptEffect_read_outside hwf ha).symm
    · obtain ⟨i, rfl⟩ := Nat.exists_eq_add_of_le (show s.dst.toNat ≤ a by omega)
      have hi : i < s.len.toNat := by omega
      obtain ⟨hr, hlie⟩ := hsrc hd i hi rfl
      exact (encryptEffect_read_inside (s := s.withRaced as) hwf hi hlie hr).trans
        (encryptEffect_read_inside hwf hi hlie (by simp [hraced])).symm

end

/-! ## The other masters' own accesses -/

theorem exec_mem_wf {i : Instr} {s t : State} (h : exec i s = .next t) (hwf : s.mem.wf) : t.mem.wf := by
  cases exec_cases h with
  | error | nop | empty | init => exact hwf
  | encrypt | keystream => exact Memory.wf_writeBytes hwf _ _

theorem issueCommand_mem_wf {w : Word} {s t : State} (h : issueCommand w s = .next t) (hwf : s.mem.wf) : t.mem.wf := by
  cases issueCommand_cases h with
  | illegal => exact hwf
  | legal _ _ _ he => exact exec_mem_wf he hwf

section
variable {stored : Option (Nat × Nat)} {writes : List Host.Cell} {reads : List Nat} {s t : State} {a : Nat}

/-- A byte the other masters do not write is as the command left it. -/
theorem settleRace_read (hwf : t.mem.wf) (ha : a ∉ writes.map (·.1)) :
    (settleRace stored writes reads s t).mem.read a = t.mem.read a := by
  refine Memory.read_writeCells_outside hwf fun c hc hca => ha ?_
  rw [← landedWrites_addresses stored t.draws 0 writes, ← hca]
  exact List.mem_map_of_mem hc

/-- A byte they read and do not write is its old or its new value (R64). -/
theorem settleRace_peerData_getElem? (hwf : t.mem.wf) {k : Nat} (hk : reads[k]? = some a) (ha : a ∉ writes.map (·.1)) :
    (settleRace stored writes reads s t).peerData[k]? = some (s.mem.read a) ∨
      (settleRace stored writes reads s t).peerData[k]? =
        some ((settleRace stored writes reads s t).mem.read a) := by
  rw [settleRace_read hwf ha, settleRace_peerData, peerReads_getElem?, hk, Option.map_some, peerRead, if_neg ha]
  split_ifs
  · exact .inr rfl
  · exact .inl rfl
  · exact .inl rfl

end

/-! ## The two steps -/

/-- A host's command runs by `issueCommand` (R104). -/
theorem step_write_command {s : State} (w : Word) (hs : s.Ready) :
    step (withTxn s (.write (s.plat.regBase + 0x00) 4 w)) = issueCommand w { s with bus := [] } :=
  step_write_window w hs (by decide)

/-- A command during other masters' accesses runs by `issueCommand` too, and their accesses are settled after it (R64). -/
theorem step_contended_next {s u : State} {w : Word} {writes : List Host.Cell} {reads : List Nat} (hs : s.Ready)
    (h : step (withTxn s (.contended w writes reads)) = .next u) :
    ∃ t, issueCommand w (({ s with bus := [] } : State).withRaced (writes.map (·.1))) = .next t ∧
      u = settleRace (storedBuffer w t) writes reads { s with bus := [] } t := by
  rw [step_withTxn _ hs.1, perform, contendedCommand] at h
  split at h
  · exact absurd h (badMemory_ne_next _ _ _)
  · rw [if_neg (by simp [hs.2])] at h
    split at h
    · rename_i t ht; cases h; exact ⟨t, ht, rfl⟩
    · cases h
    · cases h

/-! ## The obligation -/

/-- Settles O48: the command ends in one of the ways of `RacedCase`, and the settling of the other masters' accesses changes
nothing but the bytes they write. -/
theorem contendedCommandsUpdateTheEngineAlike : Obligations.ContendedCommandsUpdateTheEngineAlike := by
  intro s t u w writes reads hs hwf hraced ht hu
  rw [step_write_command w hs] at ht
  obtain ⟨t', ht', rfl⟩ := step_contended_next hs hu
  have hcase := issueCommand_raced ht ht'
  have hsame := hcase.sameUpdate
  have hsur := issueCommand_surroundings ht
  have hsur' := issueCommand_surroundings ht'
  have hwf' : t'.mem.wf := issueCommand_mem_wf ht' hwf
  exact ⟨hsame.err, hsame.initd, hsame.layout, hsame.wrap, hsame.kpos, hsame.counter,
    hsur'.src.trans hsur.src.symm, hsur'.dst.trans hsur.dst.symm, hsur'.len.trans hsur.len.symm,
    hsur'.keyaddr.trans hsur.keyaddr.symm, hsur'.nonceaddr.trans hsur.nonceaddr.symm,
    hsur'.ctrinit.trans hsur.ctrinit.symm, rfl, hcase.stream, hsame.kbuf, hsame.constants, hcase.key hraced,
    hcase.nonce_ietf hraced, fun hl => ⟨hcase.counter_high hl, hcase.nonce_ext hraced hl⟩,
    fun a ha hsrc => (settleRace_read hwf' ha).trans (hcase.read hwf hraced a hsrc), peerReads_length _ _ _ _ _ _ _,
    fun _ _ hk ha => settleRace_peerData_getElem? hwf' hk ha⟩

end Sys2Proof.Machine
end

