-- ==== Sys2Proof/Proofs/Encoding.lean ====
section
/-! PROOFS. Command words (R70 to R78). The one idea: a word decodes to a command exactly when the command is well formed and
the word is the encoder's word of it (`decode_eq_ok_iff`). The rows of R73, the words that are illegal and the words
that the assembler's lines stand for are read off from it. -/

namespace Sys2Proof

/-! ## The encoder and the decoder -/

theorem Instr.wf_init_iff (klen nlen : Nat) : (Instr.init klen nlen).wf = true ↔ klen ≤ 255 ∧ nlen ≤ 255 := by
  simp [Instr.wf]

/-- The encoder's word of a well-formed command decodes to it: the lengths fit their fields, so neither spills (R76, R77). -/
theorem decode_encode {i : Instr} (h : i.wf = true) : decode (encode i) = .ok i := by
  cases i with
  | nop => exact decode_nop
  | encrypt => exact decode_encrypt
  | keystream => exact decode_keystream
  | init klen nlen =>
    obtain ⟨hk, hn⟩ := (Instr.wf_init_iff klen nlen).1 h
    have hw := encode_init_toNat hk hn
    rw [decode_init_row (by omega) (by omega), fieldKlen_eq, fieldNlen_eq, hw]
    congr <;> omega

/-- The two fields of any word fit the operands of `INIT` (R75). -/
theorem wf_init_fields (w : Word) : (Instr.init (fieldKlen w) (fieldNlen w)).wf = true := by
  rw [Instr.wf_init_iff, fieldKlen_eq, fieldNlen_eq]
  omega

/-- A word of the `INIT` row is the encoder's word of its two fields: the row fixes every other bit (R73). -/
theorem encode_init_fields {w : Word} (h1 : w.toNat % 256 = 1) (h2 : w.toNat < 2 ^ 24) :
    encode (.init (fieldKlen w) (fieldNlen w)) = w := by
  obtain ⟨hk, hn⟩ := (Instr.wf_init_iff _ _).1 (wf_init_fields w)
  apply BitVec.eq_of_toNat_eq
  rw [encode_init_toNat hk hn, fieldKlen_eq, fieldNlen_eq]
  omega

/-- A word that decodes has well-formed operands and is the encoder's word of its command (R73, R77). -/
theorem wf_and_encode_of_decode {w : Word} {i : Instr} (h : decode w = .ok i) : i.wf = true ∧ encode i = w := by
  obtain ⟨rfl, rfl⟩ | ⟨rfl, h1, h2⟩ | ⟨rfl, rfl⟩ | ⟨rfl, rfl⟩ := decode_cases h
  · exact ⟨rfl, rfl⟩
  · exact ⟨wf_init_fields w, encode_init_fields h1 h2⟩
  · exact ⟨rfl, rfl⟩
  · exact ⟨rfl, rfl⟩

theorem decode_eq_ok_iff (w : Word) (i : Instr) : decode w = .ok i ↔ i.wf = true ∧ encode i = w :=
  ⟨wf_and_encode_of_decode, fun ⟨hwf, hw⟩ => hw ▸ decode_encode hwf⟩

/-! ## The rows of the table -/

/-- The mask of a row without operands keeps every bit (R73). -/
theorem and_full_mask (w : Word) : w &&& 0xFFFFFFFF#32 = w := BitVec.and_allOnes

/-- The words without operands are rows of one word each (R73). -/
theorem decode_eq_ok_iff_row {i : Instr} (hwf : i.wf = true) (w : Word) :
    decode w = .ok i ↔ w &&& 0xFFFFFFFF#32 = encode i := by
  rw [decode_eq_ok_iff, and_full_mask, eq_comm (a := w)]
  simp [hwf]

/-- The number of a word that decodes to an `INIT` (R77). -/
theorem toNat_of_decode_init {w : Word} {klen nlen : Nat} (h : decode w = .ok (.init klen nlen)) :
    klen ≤ 255 ∧ nlen ≤ 255 ∧ w.toNat = 1 + klen * 2 ^ 16 + nlen * 2 ^ 8 := by
  obtain ⟨hwf, rfl⟩ := wf_and_encode_of_decode h
  obtain ⟨hk, hn⟩ := (Instr.wf_init_iff klen nlen).1 hwf
  exact ⟨hk, hn, encode_init_toNat hk hn⟩

/-- The row of `INIT` is the row of the words that decode to some `INIT` (R73). -/
theorem decode_init_iff_row (w : Word) :
    (∃ klen nlen, decode w = .ok (.init klen nlen)) ↔ w &&& 0xFF0000FF#32 = 0x00000001#32 := by
  rw [init_row_iff]
  constructor
  · rintro ⟨klen, nlen, h⟩
    obtain ⟨hk, hn, hw⟩ := toNat_of_decode_init h
    omega
  · rintro ⟨h1, h2⟩
    exact ⟨_, _, decode_init_row h1 h2⟩

/-- The operands of a decoded `INIT` are the fields of its word (R71). -/
theorem operands_of_decode_init {w : Word} {klen nlen : Nat} (h : decode w = .ok (.init klen nlen)) :
    klen = w.toNat / 2 ^ 16 % 256 ∧ nlen = w.toNat / 2 ^ 8 % 256 := by
  obtain ⟨hk, hn, hw⟩ := toNat_of_decode_init h
  omega

/-- A word outside the four rows is no legal command (R74). -/
theorem decode_ne_ok_of_no_row {w : Word} (hnop : w &&& 0xFFFFFFFF#32 ≠ 0x00000000#32)
    (hinit : w &&& 0xFF0000FF#32 ≠ 0x00000001#32) (hencrypt : w &&& 0xFFFFFFFF#32 ≠ 0x00000002#32)
    (hkeystream : w &&& 0xFFFFFFFF#32 ≠ 0x00000003#32) (i : Instr) : decode w ≠ .ok i := by
  intro h
  cases i with
  | nop => exact hnop ((decode_eq_ok_iff_row rfl w).1 h)
  | init klen nlen => exact hinit ((decode_init_iff_row w).1 ⟨klen, nlen, h⟩)
  | encrypt => exact hencrypt ((decode_eq_ok_iff_row rfl w).1 h)
  | keystream => exact hkeystream ((decode_eq_ok_iff_row rfl w).1 h)

end Sys2Proof

namespace Sys2Proof.Machine

/-! ## The assembler's lines -/

theorem asmWord_init_of_wf {klen nlen : Nat} (h : (Instr.init klen nlen).wf = true) :
    asmWord (.init klen nlen) = some (encode (.init klen nlen)) := by simp [asmWord, asmInstr, h]

theorem asmWord_init_of_not_wf {klen nlen : Nat} (h : ¬ (Instr.init klen nlen).wf = true) :
    asmWord (.init klen nlen) = none := by simp [asmWord, asmInstr, h]

/-! ## The command register -/

/-- A host's 32-bit write to `CMD` issues its word, whatever waits behind it (R104). -/
theorem step_eq_issueCommand {s : State} {w : Word} {rest : List Txn} (hs : s.Ready)
    (hb : s.bus = .write (s.plat.regBase + 0x00) 4 w :: rest) : step s = issueCommand w { s with bus := rest } := by
  obtain ⟨hplat, hreset⟩ := hs
  rw [step_eq_perform hb hplat]
  simp only [perform, hostWrite, windowOffset_base _ (show 0x00 < 0x100 by decide), hreset]
  rfl

/-- An illegal word raises `ILLEGAL_COMMAND` (R105, R202). -/
theorem issueCommand_of_illegal {w : Word} (h : ∀ i, decode w ≠ .ok i) (s : State) :
    issueCommand w s = raiseError .illegalCommand s := by
  cases hd : decode w with
  | ok i => exact absurd hd (h i)
  | error e => simp [issueCommand, hd]

/-! ## The obligations -/

/-- Settles O1: `decode_encode`, by the constructor of the command. -/
theorem decodeOfEncodeIsTheCommand : Obligations.DecodeOfEncodeIsTheCommand := fun _ => decode_encode

/-- Settles O2: `wf_and_encode_of_decode`, by the row that the word is of. -/
theorem encodeOfDecodeIsTheWord : Obligations.EncodeOfDecodeIsTheWord := fun _ _ => wf_and_encode_of_decode

/-- Settles O3: a row of one word is the encoder's word, and the row of `INIT` fixes what its fields leave. -/
theorem legalWordsAreTheTableRows : Obligations.LegalWordsAreTheTableRows := fun w =>
  ⟨decode_eq_ok_iff_row rfl w, decode_init_iff_row w, decode_eq_ok_iff_row rfl w, decode_eq_ok_iff_row rfl w,
    fun _ _ => operands_of_decode_init⟩

/-- Settles O6: the line is assembled exactly when its operands are well formed, and its word is the encoder's. -/
theorem initLinesAssemble : Obligations.InitLinesAssemble := by
  intro klen nlen
  have hwf := Instr.wf_init_iff klen nlen
  refine ⟨fun hle => ?_, fun hgt => asmWord_init_of_not_wf (by rw [hwf]; omega)⟩
  exact ⟨_, asmWord_init_of_wf (hwf.2 hle), encode_init_toNat hle.1 hle.2, decode_encode (hwf.2 hle)⟩

/-- Settles O8: the word is issued, decodes to no command, and so raises the error. -/
theorem illegalWordsRaiseIllegalCommand : Obligations.IllegalWordsRaiseIllegalCommand := by
  intro s w rest hs hb hnop hinit hencrypt hkeystream
  rw [step_eq_issueCommand hs hb,
    issueCommand_of_illegal (decode_ne_ok_of_no_row hnop hinit hencrypt hkeystream), raiseError]

/-- Settles O4: the legal words are the encoder's words of their commands, and the illegal ones are of no row. -/
theorem sampleWordsDecode : Obligations.SampleWordsDecode := by
  refine ⟨decode_encode (i := .nop) rfl, decode_encode (i := .init 32 12) rfl, decode_encode (i := .init 32 8) rfl,
    decode_encode (i := .init 31 12) rfl, decode_encode (i := .init 0 0) rfl, decode_encode (i := .encrypt) rfl,
    decode_encode (i := .keystream) rfl, ?_, ?_, ?_, ?_⟩
  all_goals exact decode_ne_ok_of_no_row (by decide) (by decide) (by decide) (by decide)

/-- Settles O5: each pseudo-instruction stands for the command of its row of R78, whose word is the encoder's. -/
theorem pseudoInstructionsAssemble : Obligations.PseudoInstructionsAssemble :=
  ⟨rfl, (asmWord_init_of_wf rfl).symm, rfl, (asmWord_init_of_wf rfl).symm, rfl, rfl, rfl, rfl⟩

end Sys2Proof.Machine
end

