-- ==== Sys2Proof/Proofs/Window.lean ====
section
/-! PROOFS. The register window and command issue (R54, R100 to R108). What an access does is said once per register, at the
register's offset; the statements are these facts register by register. No transaction but a host's write reaches an operand
register, short of a reset. -/

namespace Sys2Proof.Machine

/-! ## Offsets -/

theorem regOffset_lt (r : Reg) : regOffset r < 0x100 := by
  cases r with
  | s i => simp only [regOffset]; omega
  | _ => decide

theorem regOffset_aligned (r : Reg) : regOffset r % 4 = 0 := by
  cases r with
  | s i => simp only [regOffset]; omega
  | _ => rfl

theorem reservedOffset_lt {off : Nat} (h : reservedOffset off) : off < 0x100 := by
  obtain ⟨-, h⟩ := h
  omega

/-! ## What an access at an offset does -/

section
variable {off width : Nat} {s : State}

/-- A 32-bit read at a register's offset reads the register (R102). -/
theorem readOffset_regOffset (r : Reg) (s : State) : readOffset (regOffset r) 4 s = readReg r s := by
  simp [readOffset, regOffset_aligned, regAt_regOffset]

/-- A read at a reserved offset returns 0 (R38). -/
theorem readOffset_reserved (h : reservedOffset off) : readOffset off 4 s = 0#32 := by
  simp [readOffset, regAt_reserved h]

/-- So does a read of another width or alignment (R54). -/
theorem readOffset_misfit (h : width ≠ 4 ∨ off % 4 ≠ 0) : readOffset off width s = 0#32 :=
  if_neg (by omega)

/-- A 32-bit write at a register's offset writes the register (R100). -/
theorem writeOffset_regOffset (r : Reg) (v : Word) (s : State) :
    writeOffset (regOffset r) 4 v s = writeReg r v s := by
  simp [writeOffset, regOffset_aligned, regAt_regOffset]

/-- A write at a reserved offset does nothing (R38, R100). -/
theorem writeOffset_reserved (v : Word) (h : reservedOffset off) : writeOffset off 4 v s = .next s := by
  simp [writeOffset, regAt_reserved h]

/-- Nor does a write of another width or alignment (R54). -/
theorem writeOffset_misfit (v : Word) (h : width ≠ 4 ∨ off % 4 ≠ 0) : writeOffset off width v s = .next s :=
  if_neg (by omega)

end

/-- No register's value depends on the transactions that wait. -/
theorem readReg_bus (r : Reg) (s : State) (bus : List Txn) : readReg r { s with bus := bus } = readReg r s := by
  cases r <;> rfl

/-! ## One access while the window responds -/

section
variable {s : State}

theorem readsAs_of_readOffset {off : Nat} {v : Word} (hs : s.Ready) (ho : off < 0x100)
    (h : readOffset off 4 { s with bus := [] } = v) : readsAs s off v := by
  rw [readsAs, step_read_window hs ho, h]

theorem readsAs_register (hs : s.Ready) (r : Reg) : readsAs s (regOffset r) (readReg r s) :=
  readsAs_of_readOffset hs (regOffset_lt r) ((readOffset_regOffset r _).trans (readReg_bus r s []))

theorem writesTo_of_writeOffset {off : Nat} {v : Word} {t : State} (hs : s.Ready) (ho : off < 0x100)
    (h : writeOffset off 4 v { s with bus := [] } = .next { t with bus := [] }) : writesTo s off v t :=
  (step_write_window v hs ho).trans h

theorem writesTo_register {v : Word} {t : State} (hs : s.Ready) (r : Reg)
    (h : writeReg r v { s with bus := [] } = .next { t with bus := [] }) : writesTo s (regOffset r) v t :=
  writesTo_of_writeOffset hs (regOffset_lt r) ((writeOffset_regOffset r v _).trans h)

end

/-- The `LAYOUT` bit as a word (R26). -/
theorem flagWord_layoutBit (l : Layout) : flagWord (layoutBit l) = if l = .ext then 1#32 else 0#32 := by
  cases l <;> rfl

/-- Before the first `INIT` the state words are those of the reset stream, all 0 (R37). -/
theorem stateWord_of_not_initd {s : State} (hinv : s.Inv) (hi : s.initd = false) (i : Fin 16) :
    s.stream.S[i] = 0#32 := by
  obtain ⟨-, hstream, -⟩ := hinv
  rw [(s.streamOk_iff.1 hstream).1 hi]
  exact Vector.getElem_replicate i.isLt

/-! ## Operand registers -/

/-- Each operand register of `t` holds what the transaction `x` leaves in it from `s` (R100, R101). -/
structure OperandsAfter (x : Txn) (s t : State) : Prop where
  src : t.src = operandAfter x s 0x10 s.src
  dst : t.dst = operandAfter x s 0x14 s.dst
  len : t.len = operandAfter x s 0x18 s.len
  keyaddr : t.keyaddr = operandAfter x s 0x1C s.keyaddr
  nonceaddr : t.nonceaddr = operandAfter x s 0x20 s.nonceaddr
  ctrinit : t.ctrinit = operandAfter x s 0x24 s.ctrinit

/-- `t` has the operand registers of `s`. -/
structure SameOperands (s t : State) : Prop where
  src : t.src = s.src
  dst : t.dst = s.dst
  len : t.len = s.len
  keyaddr : t.keyaddr = s.keyaddr
  nonceaddr : t.nonceaddr = s.nonceaddr
  ctrinit : t.ctrinit = s.ctrinit

theorem SameSurroundings.sameOperands {s t : State} (h : SameSurroundings s t) : SameOperands s t :=
  ⟨h.src, h.dst, h.len, h.keyaddr, h.nonceaddr, h.ctrinit⟩

/-- A transaction that writes at no operand's offset leaves them as they were. -/
theorem SameOperands.operandsAfter {x : Txn} {s t : State} (h : SameOperands s t)
    (hx : ∀ off old, 0x10 ≤ off → off ≤ 0x24 → off % 4 = 0 → operandAfter x s off old = old) :
    OperandsAfter x s t where
  src := h.src.trans (hx _ _ (by decide) (by decide) rfl).symm
  dst := h.dst.trans (hx _ _ (by decide) (by decide) rfl).symm
  len := h.len.trans (hx _ _ (by decide) (by decide) rfl).symm
  keyaddr := h.keyaddr.trans (hx _ _ (by decide) (by decide) rfl).symm
  nonceaddr := h.nonceaddr.trans (hx _ _ (by decide) (by decide) rfl).symm
  ctrinit := h.ctrinit.trans (hx _ _ (by decide) (by decide) rfl).symm

/-- A write to `CMD` is at no operand's offset. -/
theorem operandAfter_write_cmd {s : State} {w old : Word} {width off : Nat} (h : 0x10 ≤ off) :
    operandAfter (.write s.plat.regBase width w) s off old = old :=
  operandAfter_write_ne (off := 0) rfl (.inl (by omega))

theorem perform_operandsAfter {x : Txn} {s t : State} (h : perform x s = .next t) (hx : resetsEngine x s = false) :
    OperandsAfter x s t := by
  cases perform_cases h with
  | silent _ _ _ _ ho => exact SameOperands.operandsAfter ⟨rfl, rfl, rfl, rfl, rfl, rfl⟩ ho
  | operand _ _ _ _ _ _ _ _ _ _ _ _ ha hb hl hk hn hf => exact ⟨ha, hb, hl, hk, hn, hf⟩
  | command w _ hcmd _ hi =>
    subst hcmd
    exact (issueCommand_surroundings hi).sameOperands.operandsAfter fun _ _ hlow _ _ => operandAfter_write_cmd hlow
  | memory _ _ hmem => subst hmem; exact ⟨rfl, rfl, rfl, rfl, rfl, rfl⟩
  | quiet _ _ _ hcon => subst hcon; exact ⟨rfl, rfl, rfl, rfl, rfl, rfl⟩
  | race _ _ _ _ hcon _ _ hi =>
    subst hcon
    obtain ⟨hsrc, hdst, hlen, hkey, hnonce, hctr⟩ := (issueCommand_surroundings hi).sameOperands
    exact ⟨hsrc, hdst, hlen, hkey, hnonce, hctr⟩
  | reset _ hr | interrupted _ _ _ hr => simp [hx] at hr

/-! ## The obligations -/

/-- Settles O7: the write issues its word, and issuing a legal word runs its command. -/
theorem stepRunsTheDecodedCommand : Obligations.StepRunsTheDecodedCommand := by
  intro s w i rest hs hb hd
  rw [step_eq_issueCommand hs hb, issueCommand, hd]

/-- Settles O9: a step with nothing to perform is the identity. -/
theorem idleEngineIsConstant : Obligations.IdleEngineIsConstant := by
  intro s hb
  simp [step, hb]

/-- Settles O11: register by register, then the offsets without a register and the accesses that fit none. -/
theorem windowReads : Obligations.WindowReads := by
  intro s hs
  have reg := readsAs_register hs
  refine ⟨reg .cmd, ?_, reg .kpos, reg .src, reg .dst, reg .len, reg .keyaddr, reg .nonceaddr, reg .ctrinit,
    fun i => reg (.s i), fun hinv hi i => ?_, fun off ho => ?_, fun off width ho hfit => ?_⟩
  · rw [← flagWord_layoutBit]
    exact reg .status
  · rw [← stateWord_of_not_initd hinv hi i]
    exact reg (.s i)
  · exact readsAs_of_readOffset hs (reservedOffset_lt ho) (readOffset_reserved ho)
  · rw [step_read_window hs ho, readOffset_misfit hfit]

/-- Settles O12: register by register, then the offsets without a register and the accesses that fit none. -/
theorem windowWrites : Obligations.WindowWrites := by
  intro s v hs
  refine ⟨step_write_command v hs, writesTo_register hs .src rfl, writesTo_register hs .dst rfl,
    writesTo_register hs .len rfl, writesTo_register hs .keyaddr rfl, writesTo_register hs .nonceaddr rfl,
    writesTo_register hs .ctrinit rfl, writesTo_register hs .status rfl, writesTo_register hs .kpos rfl,
    fun i => writesTo_register hs (.s i) rfl, fun off ho => ?_, fun off width ho hfit => ?_⟩
  · exact writesTo_of_writeOffset hs (reservedOffset_lt ho) (writeOffset_reserved v ho)
  · rw [step_write_window v hs ho, writeOffset_misfit v hfit]

/-- Settles O46: by the ways a transaction is performed. -/
theorem onlyTheHostWritesOperandRegisters : Obligations.OnlyTheHostWritesOperandRegisters := by
  intro s t x rest hb h hx
  obtain ⟨hsrc, hdst, hlen, hkey, hnonce, hctr⟩ := perform_operandsAfter (step_next hb h).2 hx
  exact ⟨hsrc, hdst, hlen, hkey, hnonce, hctr⟩

end Sys2Proof.Machine
end

