-- ==== Sys2Proof/Proofs/ResultCodes.lean ====
section
/-! PROOFS. The result code of a command (R106, R207). Each check of a command is a check of `resultCode`, in the same order, so
the two take the same branch; the one branch that reports nothing is a refusal, and it needs memory with side effects (R57).
No check and no effect looks at `ERR`, and every command overwrites it. -/

namespace Sys2Proof.Machine

/-! ## The code that a command reports -/

/-- The outcome goes on with `ERR` = `e`, or is a refusal on a platform that has memory with side effects. -/
inductive Reports (p : Platform) (e : ErrCode) : Host.Outcome State Fault Refusal → Prop where
  | next (t : State) (he : t.err = e) : Reports p e (.next t)
  | refused (hdev : p.devices ≠ []) : Reports p e (.refused .sideEffectMemory)

theorem reports_next_iff {p : Platform} {e : ErrCode} {t : State} : Reports p e (.next t) ↔ t.err = e :=
  ⟨fun | .next _ he => he, .next t⟩

/-- Where all of memory is plain, the command completes. -/
theorem Reports.exists_next {p : Platform} {e : ErrCode} {o : Host.Outcome State Fault Refusal} (h : Reports p e o)
    (hp : p.devices = []) : ∃ t, o = .next t ∧ t.err = e := by
  cases h with
  | next t he => exact ⟨t, rfl, he⟩
  | refused hdev => exact absurd hp hdev

/-- Memory with side effects that a buffer covers is a range of the platform's. -/
theorem devices_ne_nil_of_touchesDevice {p : Platform} {a n : Nat} (h : touchesDevice p a n = true) :
    p.devices ≠ [] := by
  intro hp
  simp [touchesDevice, hp] at h

theorem devices_ne_nil_of_touchesDevice_or {p : Platform} {a n b m : Nat}
    (h : (touchesDevice p a n || touchesDevice p b m) = true) : p.devices ≠ [] :=
  (Bool.or_eq_true_iff.1 h).elim devices_ne_nil_of_touchesDevice devices_ne_nil_of_touchesDevice

theorem not_bufferValid_iff (p : Platform) (a n : Nat) : (!bufferValid p a n) = true ↔ p.memSize < a + n := by
  rw [Bool.not_eq_true', ← Bool.not_eq_true, bufferValid_iff, Nat.not_le]

theorem not_bufferValid_or_iff (p : Platform) (a n b m : Nat) :
    (!bufferValid p a n || !bufferValid p b m) = true ↔ p.memSize < a + n ∨ p.memSize < b + m := by
  rw [Bool.or_eq_true, not_bufferValid_iff, not_bufferValid_iff]

theorem len_eq_zero_iff (s : State) : s.len = 0#32 ↔ s.len.toNat = 0 := BitVec.toNat_eq

section
variable {w : Word} (s : State)

/-- `INIT` reports the first of its failing checks. -/
theorem execInit_reports {klen nlen : Nat} (hd : decode w = .ok (.init klen nlen)) :
    Reports s.plat (resultCode w s) (execInit klen nlen s) := by
  simp only [resultCode, hd, execInit, not_bufferValid_or_iff, raiseError]
  split_ifs with hk hn hv hdev
  · exact .next _ rfl
  · exact .next _ rfl
  · exact .next _ rfl
  · exact .refused (devices_ne_nil_of_touchesDevice_or hdev)
  · exact .next _ rfl

/-- So does `ENCRYPT`. -/
theorem execEncrypt_reports (hd : decode w = .ok .encrypt) : Reports s.plat (resultCode w s) (execEncrypt s) := by
  simp only [resultCode, hd, execEncrypt, not_bufferValid_or_iff, len_eq_zero_iff, raiseError]
  split_ifs with h0 hl hv hdev
  · exact .next _ rfl
  · exact .next _ rfl
  · exact .next _ rfl
  · exact .refused (devices_ne_nil_of_touchesDevice_or hdev)
  · exact .next _ rfl

/-- So does `KEYSTREAM`. -/
theorem execKeystream_reports (hd : decode w = .ok .keystream) :
    Reports s.plat (resultCode w s) (execKeystream s) := by
  simp only [resultCode, hd, execKeystream, not_bufferValid_iff, len_eq_zero_iff, raiseError]
  split_ifs with h0 hl hv hdev
  · exact .next _ rfl
  · exact .next _ rfl
  · exact .next _ rfl
  · exact .refused (devices_ne_nil_of_touchesDevice hdev)
  · exact .next _ rfl

end

/-- Every command word reports its result code, if it is not refused (R106). -/
theorem issueCommand_reports (w : Word) (s : State) : Reports s.plat (resultCode w s) (issueCommand w s) := by
  unfold issueCommand
  split
  case h_1 i hd =>
    cases i with
    | nop => exact .next _ (by simp [resultCode, hd])
    | init => exact execInit_reports s hd
    | encrypt => exact execEncrypt_reports s hd
    | keystream => exact execKeystream_reports s hd
  case h_2 e hd => exact .next _ (by simp [resultCode, hd])

/-! ## No command reads ERR -/

/-- The state in which a command begins with another `ERR`. -/
abbrev State.withErr (s : State) (e : ErrCode) : State := { s with err := e }

section
variable (s : State) (e : ErrCode)

theorem engineReads_withErr (k a n : Nat) : engineReads (s.withErr e) k a n = engineReads s k a n :=
  engineReads_congr (s := s.withErr e) (s' := s) rfl rfl rfl k a n

theorem initStream_withErr (nlen : Nat) : initStream nlen (s.withErr e) = initStream nlen s := by
  simp only [initStream, keyBytes, nonceBytes, engineReads_withErr]

theorem encryptBytes_withErr : encryptBytes (s.withErr e) = encryptBytes s := by
  simp only [encryptBytes, sourceBytes, engineReads_withErr, stateKeystream]

/-- The end of a command overwrites `ERR` (R106). -/
theorem complete_withErr : complete (s.withErr e) = complete s := rfl

theorem complete_encryptEffect_withErr :
    complete (encryptEffect (s.withErr e)) = complete (encryptEffect s) := by
  rw [encryptEffect, encryptBytes_withErr]
  rfl

theorem complete_keystreamEffect_withErr :
    complete (keystreamEffect (s.withErr e)) = complete (keystreamEffect s) := rfl

/-- A raised error overwrites it too (R201). -/
theorem raiseError_withErr (code : ErrCode) : raiseError code (s.withErr e) = raiseError code s := rfl

/-- The checks do not look at `ERR`, and each branch overwrites it. -/
theorem exec_withErr (i : Instr) : exec i (s.withErr e) = exec i s := by
  cases i with
  | nop => rfl
  | init => simp only [exec, execInit, raiseError_withErr, initStream_withErr, complete]
  | encrypt => simp only [exec, execEncrypt, raiseError_withErr, complete_withErr, complete_encryptEffect_withErr]
  | keystream => simp only [exec, execKeystream, raiseError_withErr, complete_withErr, complete_keystreamEffect_withErr]

theorem issueCommand_withErr (w : Word) : issueCommand w (s.withErr e) = issueCommand w s := by
  simp only [issueCommand, exec_withErr, raiseError_withErr]

end

/-! ## The obligation -/

/-- Settles O32: the outcome reports the result code, a refusal needs memory with side effects, and `ERR` is only written. -/
theorem commandsReportTheFirstFailingCheck : Obligations.CommandsReportTheFirstFailingCheck := by
  intro s w
  have hrep := issueCommand_reports w s
  exact ⟨hrep.exists_next, fun t ht => reports_next_iff.1 (ht ▸ hrep), fun e => issueCommand_withErr s e w⟩

end Sys2Proof.Machine
end

