-- ==== Sys2Proof/Proofs/BeginStream.lean ====
section
/-! PROOFS. The stream that `INIT` begins (R120 to R127). Its checks passed, `INIT` is a function of the bytes it reads, the
nonce length and `CTRINIT`; what it reads is memory, where no other master writes meanwhile (R64). -/

namespace Sys2Proof.Machine

/-! ## INIT completes -/

/-- `INIT` completes where its lengths are legal and its buffers are valid and plain (R120). -/
theorem execInit_completes {s : State} {nlen : Nat} (hn : nlen = 8 ∨ nlen = 12)
    (hk : s.keyaddr.toNat + 32 ≤ s.plat.memSize) (hv : s.nonceaddr.toNat + nlen ≤ s.plat.memSize)
    (hkey : plainBuffer s.plat s.keyaddr.toNat 32) (hnonce : plainBuffer s.plat s.nonceaddr.toNat nlen) :
    execInit 32 nlen s = .next (complete { s with stream := initStream nlen s, initd := true }) := by
  have hlen : ¬ (nlen ≠ 8 ∧ nlen ≠ 12) := by omega
  rw [← bufferValid_iff] at hk hv
  rw [← touchesDevice_eq_false] at hkey hnonce
  simp [execInit, hlen, hk, hv, hkey, hnonce]

/-- An `INIT` that reports no error has begun its stream (R125). -/
theorem stream_of_exec_init {klen nlen : Nat} {s t : State} (h : exec (.init klen nlen) s = .next t) (hok : t.err = .ok) :
    t.stream = initStream nlen s := by
  cases exec_cases h with
  | error _ he => exact absurd hok he
  | init n hi =>
    obtain ⟨-, rfl⟩ := Instr.init.inj hi
    rfl
  | nop hi | encrypt hi | keystream hi => cases hi
  | empty hi => simp at hi

/-! ## What the new stream depends on -/

/-- Engine reads of two buffers that hold the same bytes and that no other master writes are the same. -/
theorem engineReads_eq_of_read_eq {s s' : State} (hr : s.raced = []) (hr' : s'.raced = []) (k : Nat) {a a' n : Nat}
    (h : ∀ j, j < n → s.mem.read (a + j) = s'.mem.read (a' + j)) : engineReads s k a n = engineReads s' k a' n := by
  refine List.ext_getElem (by simp) fun j hj hj' => ?_
  rw [engineReads_getElem, engineReads_getElem, engineRead_plain (by simp [hr]), engineRead_plain (by simp [hr'])]
  exact h j (by simpa using hj)

/-- The key bytes, the nonce bytes and `CTRINIT` determine the new stream (R127). -/
theorem initStream_congr {s s' : State} {nlen : Nat} (hkey : keyBytes s = keyBytes s')
    (hnonce : nonceBytes s nlen = nonceBytes s' nlen) (hctr : s.ctrinit = s'.ctrinit) :
    initStream nlen s = initStream nlen s' := by
  rw [initStream, initStream, hkey, hnonce, hctr]

/-! ## The obligations -/

/-- Settles O35: the stream is `initStream`, and its words are those that `initWords` places. -/
theorem initBeginsAStream : Obligations.InitBeginsAStream := by
  intro s nlen hn hk hv hkey hnonce
  obtain ⟨h0, h1, h2, h3⟩ := initWords_constants (layoutOf nlen) (keyBytes s) (nonceBytes s nlen) s.ctrinit
  refine ⟨initStream nlen s, execInit_completes hn hk hv hkey hnonce, h0, h1, h2, h3, initStream_key nlen,
    initStream_counter nlen s, ?ietf, ?ext, rfl, rfl, rfl⟩
  case ietf =>
    rintro rfl
    exact ⟨rfl, initStream_nonce_ietf⟩
  case ext =>
    rintro rfl
    exact ⟨rfl, initStream_counter_high s, initStream_nonce_ext⟩

/-- Settles O36: both engines read the same key and nonce bytes, and the stream before `INIT` has no part in the new one. -/
theorem sameInitSameStream : Obligations.SameInitSameStream := by
  intro s s' t t' nlen hkey hnonce hctr hr hr' h hok h' hok'
  calc t.stream = initStream nlen s := stream_of_exec_init h hok
    _ = initStream nlen s' := initStream_congr (engineReads_eq_of_read_eq hr hr' 0 hkey)
        (engineReads_eq_of_read_eq hr hr' 32 hnonce) hctr
    _ = t'.stream := (stream_of_exec_init h' hok').symm

end Sys2Proof.Machine
end

