-- ==== Sys2Proof/Proofs/Permutation.lean ====
section
/-! PROOFS. The permutation and the block function (R130 to R140). A quarter-round reads and writes only the four words its lane
names, so lanes that share no word commute, and a word of a lane comes out of a round as it comes out of its own quarter-round. -/

namespace Sys2Proof.Machine

/-! ## The rotation -/

/-- Settles O15: below `n` the bit comes from the right shift, from `n` on it comes from the left shift. -/
theorem rotationBits : Obligations.RotationBits := by
  intro x n i hn hn' hi
  rw [rotl32, BitVec.getLsbD_or, BitVec.getLsbD_shiftLeft, BitVec.getLsbD_ushiftRight]
  rcases lt_or_ge i n with h | h
  · rw [show (i + 32 - n) % 32 = 32 - n + i by omega]
    simp [h]
  · rw [show (i + 32 - n) % 32 = i - n by omega, BitVec.getLsbD_of_ge x (32 - n + i) (by omega)]
    simp [hi, h]

/-! ## The four words of a quarter-round -/

/-- A word after a quarter-round: the lines end with the last writes of `b`, `c`, `d` and `a`, in this order from the last. -/
theorem quarterRound_getElem {a b c d : Fin 16} (X : Words) (hab : a ≠ b) (hac : a ≠ c) (had : a ≠ d) (hbc : b ≠ c)
    (hbd : b ≠ d) (hcd : c ≠ d) (i : Fin 16) :
    let a1 := X[a] + X[b]
    let d1 := rotl32 (X[d] ^^^ a1) 16
    let c1 := X[c] + d1
    let b1 := rotl32 (X[b] ^^^ c1) 12
    let a2 := a1 + b1
    let d2 := rotl32 (d1 ^^^ a2) 8
    let c2 := c1 + d2
    let b2 := rotl32 (b1 ^^^ c2) 7
    (quarterRound X a b c d)[i] =
      if i = b then b2 else if i = c then c2 else if i = d then d2 else if i = a then a2 else X[i] := by
  simp only [quarterRound, addWord_getElem, xorRotate_getElem, if_true, hab, hac, had, hbc, hbd, hcd, hab.symm, hac.symm,
    had.symm, hbc.symm, hbd.symm, hcd.symm, if_false]
  split_ifs <;> rfl

/-- Settles O16: each word is the last one that a line wrote at its index, which no other index equals. -/
theorem quarterRoundLines : Obligations.QuarterRoundLines := by
  intro X a b c d hab hac had hbc hbd hcd
  have word := quarterRound_getElem X hab hac had hbc hbd hcd
  refine ⟨?_, ?_, ?_, ?_, fun i ha hb hc hd => ?_⟩
  · simp [word, hab, hac, had]
  · simp [word]
  · simp [word, hbc.symm]
  · simp [word, hbd.symm, hcd.symm]
  · simp [word, ha, hb, hc, hd]

/-! ## Which words a quarter-round reads and writes -/

/-- The indices that a quarter-round is called with (R131). -/
abbrev Lane := Fin 16 × Fin 16 × Fin 16 × Fin 16

/-- The words that a lane's quarter-round reads and writes. -/
def Lane.indices (l : Lane) : List (Fin 16) := [l.1, l.2.1, l.2.2.1, l.2.2.2]

theorem Lane.mem_indices {l : Lane} {i : Fin 16} : i ∈ l.indices ↔ i = l.1 ∨ i = l.2.1 ∨ i = l.2.2.1 ∨ i = l.2.2.2 := by
  simp [Lane.indices]

/-- The quarter-round of a lane. -/
def laneRound (X : Words) (l : Lane) : Words := quarterRound X l.1 l.2.1 l.2.2.1 l.2.2.2

/-- `X` and `Y` hold the same words at the indices of `L`. -/
def AgreeOn (L : List (Fin 16)) (X Y : Words) : Prop := ∀ i ∈ L, X[i] = Y[i]

theorem AgreeOn.addWord {L : List (Fin 16)} {X Y : Words} (h : AgreeOn L X Y) {a b : Fin 16} (ha : a ∈ L) (hb : b ∈ L) :
    AgreeOn L (addWord X a b) (addWord Y a b) := by
  intro i hi
  rw [addWord_getElem, addWord_getElem, h a ha, h b hb, h i hi]

theorem AgreeOn.xorRotate {L : List (Fin 16)} {X Y : Words} (h : AgreeOn L X Y) {d a : Fin 16} (hd : d ∈ L) (ha : a ∈ L)
    (n : Nat) : AgreeOn L (xorRotate X d a n) (xorRotate Y d a n) := by
  intro i hi
  rw [xorRotate_getElem, xorRotate_getElem, h d hd, h a ha, h i hi]

/-- What a quarter-round makes of its lane's words depends on these words only. -/
theorem AgreeOn.laneRound {X Y : Words} {l : Lane} (h : AgreeOn l.indices X Y) :
    AgreeOn l.indices (laneRound X l) (laneRound Y l) := by
  have ha : l.1 ∈ l.indices := by simp [Lane.mem_indices]
  have hb : l.2.1 ∈ l.indices := by simp [Lane.mem_indices]
  have hc : l.2.2.1 ∈ l.indices := by simp [Lane.mem_indices]
  have hd : l.2.2.2 ∈ l.indices := by simp [Lane.mem_indices]
  exact h.addWord ha hb |>.xorRotate hd ha 16 |>.addWord hc hd |>.xorRotate hb hc 12
    |>.addWord ha hb |>.xorRotate hd ha 8 |>.addWord hc hd |>.xorRotate hb hc 7

/-- A quarter-round writes the words of its lane only. -/
theorem laneRound_getElem_of_not_mem (X : Words) {l : Lane} {i : Fin 16} (hi : i ∉ l.indices) :
    (laneRound X l)[i] = X[i] := by
  simp only [Lane.mem_indices, not_or] at hi
  obtain ⟨ha, hb, hc, hd⟩ := hi
  simp only [laneRound, quarterRound, addWord_getElem, xorRotate_getElem, ha, hb, hc, hd, if_false]

/-! ## Lanes that share no word -/

theorem agreeOn_laneRound {l m : Lane} (h : l.indices.Disjoint m.indices) (X : Words) : AgreeOn l.indices (laneRound X m) X :=
  fun _ hi => laneRound_getElem_of_not_mem X (h hi)

/-- Quarter-rounds that share no word commute (R140): each lane's words come out as from its own quarter-round alone. -/
theorem laneRound_comm {l m : Lane} (h : l.indices.Disjoint m.indices) (X : Words) :
    laneRound (laneRound X l) m = laneRound (laneRound X m) l := by
  refine Words.ext_fin fun i => ?_
  by_cases hl : i ∈ l.indices
  · calc (laneRound (laneRound X l) m)[i] = (laneRound X l)[i] := laneRound_getElem_of_not_mem _ (h hl)
      _ = (laneRound (laneRound X m) l)[i] := ((agreeOn_laneRound h X).laneRound i hl).symm
  · rw [laneRound_getElem_of_not_mem (laneRound X m) hl]
    by_cases hm : i ∈ m.indices
    · exact (agreeOn_laneRound h.symm X).laneRound i hm
    · rw [laneRound_getElem_of_not_mem _ hm, laneRound_getElem_of_not_mem _ hm, laneRound_getElem_of_not_mem _ hl]

/-- Any two lanes share no word. -/
abbrev LanesDisjoint (lanes : List Lane) : Prop := lanes.Pairwise fun l m => l.indices.Disjoint m.indices

/-- Disjoint lanes give the same words in any order. -/
theorem foldl_laneRound_perm {lanes lanes' : List Lane} (hdis : LanesDisjoint lanes) (hp : lanes'.Perm lanes) (X : Words) :
    lanes'.foldl laneRound X = lanes.foldl laneRound X := by
  have hcomm : ∀ l ∈ lanes, ∀ m ∈ lanes, ∀ Y, laneRound (laneRound Y l) m = laneRound (laneRound Y m) l :=
    (hdis.imp laneRound_comm).forall_of_forall_of_flip (fun _ _ _ => rfl) (hdis.imp fun h => laneRound_comm h.symm)
  exact (hp.symm.foldl_eq' hcomm X).symm

theorem foldl_laneRound_getElem_of_not_mem {lanes : List Lane} {i : Fin 16} (h : ∀ l ∈ lanes, i ∉ l.indices) (X : Words) :
    (lanes.foldl laneRound X)[i] = X[i] := by
  induction lanes generalizing X with
  | nil => rfl
  | cons l lanes ih =>
    obtain ⟨hl, hlanes⟩ := List.forall_mem_cons.1 h
    rw [List.foldl_cons, ih hlanes, laneRound_getElem_of_not_mem X hl]

/-- Disjoint lanes give the same words all at once: with a word's own lane put first, the others leave the word alone. -/
theorem foldl_laneRound_getElem {lanes : List Lane} (hdis : LanesDisjoint lanes) {l : Lane} (hl : l ∈ lanes) {i : Fin 16}
    (hi : i ∈ l.indices) (X : Words) : (lanes.foldl laneRound X)[i] = (laneRound X l)[i] := by
  have hp := List.perm_cons_erase hl
  have hdis' : LanesDisjoint (l :: lanes.erase l) := hp.pairwise hdis fun h => h.symm
  rw [foldl_laneRound_perm hdis' hp, List.foldl_cons]
  exact foldl_laneRound_getElem_of_not_mem (fun m hm => (List.pairwise_cons.1 hdis').1 m hm hi) _

/-! ## The two rounds -/

/-- The lanes of a column round (R132). -/
def columnLanes : List Lane := [(0, 4, 8, 12), (1, 5, 9, 13), (2, 6, 10, 14), (3, 7, 11, 15)]

/-- The lanes of a diagonal round (R133). -/
def diagonalLanes : List Lane := [(0, 5, 10, 15), (1, 6, 11, 12), (2, 7, 8, 13), (3, 4, 9, 14)]

theorem columnRound_eq (X : Words) : columnRound X = columnLanes.foldl laneRound X := rfl

theorem diagonalRound_eq (X : Words) : diagonalRound X = diagonalLanes.foldl laneRound X := rfl

theorem columnLanes_disjoint : LanesDisjoint columnLanes := by simp [columnLanes, Lane.indices]

theorem diagonalLanes_disjoint : LanesDisjoint diagonalLanes := by simp [diagonalLanes, Lane.indices]

/-- On the state whose only set bit is the lowest of word 0, the two orders of the rounds differ in word 1. -/
theorem rounds_do_not_commute : ∃ X : Words, columnRound (diagonalRound X) ≠ diagonalRound (columnRound X) := by
  refine ⟨#v[1, 0, 0, 0, 0, 0, 0, 0, 0, 0, 0, 0, 0, 0, 0, 0], fun h => ?_⟩
  exact absurd (congrArg (·[1]) h) (by decide)

/-- Settles O17: each round performs pairwise disjoint lanes, and the two orders of the rounds differ on one state. -/
theorem roundLanesAreIndependent : Obligations.RoundLanesAreIndependent :=
  ⟨fun X _ hp => foldl_laneRound_perm columnLanes_disjoint hp X,
    fun X _ hp => foldl_laneRound_perm diagonalLanes_disjoint hp X,
    fun X _ _ hl hi => foldl_laneRound_getElem columnLanes_disjoint hl (Lane.mem_indices.2 hi) X,
    fun X _ _ hl hi => foldl_laneRound_getElem diagonalLanes_disjoint hl (Lane.mem_indices.2 hi) X,
    rounds_do_not_commute⟩

/-! ## The bytes of a block -/

/-- One more double round may stand at the end, where the model has it at the beginning. -/
theorem doubleRounds_succ (n : Nat) (X : Words) : doubleRounds (n + 1) X = doubleRound (doubleRounds n X) := by
  induction n generalizing X with
  | zero => rfl
  | succ n ih => exact ih (doubleRound X)

theorem doubleRounds_eq_repeat (n : Nat) (X : Words) : doubleRounds n X = Nat.repeat doubleRound n X := by
  induction n with
  | zero => rfl
  | succ n ih => rw [doubleRounds_succ, ih, Nat.repeat]

theorem block_getElem (S : Words) (i : Fin 16) (j : Fin 4) :
    (block S)[4 * i.val + j.val] = byteOf ((permute S)[i] + S[i]) j := by
  have hi : (4 * i.val + j.val) / 4 = i.val := by omega
  have hj : (4 * i.val + j.val) % 4 = j.val := by omega
  simp only [block, serialize_getElem, feedForward_getElem, hi, hj, Fin.getElem_fin]

/-- Settles O18: the byte is one of word `i` of the feed-forward, and ten double rounds are ten repetitions of one. -/
theorem blockBytes : Obligations.BlockBytes := by
  intro S i j
  rw [block_getElem, permute_eq, doubleRounds_eq_repeat]
  rfl

end Sys2Proof.Machine
end

