-- ==== Sys2Proof/Proofs/Counter.lean ====
section
/-! PROOFS. The block counter (R150 to R155). Two ideas: `n` increments add `n` to word 12 as an exact integer, so word 13 and
`WRAP` follow the carry out of its 32 bits; and whatever a transaction is, if it neither resets the engine nor begins a stream,
it leaves the stream after `bytesMoved` keystream bytes, so a run is one long `takeKeystream`. -/

namespace Sys2Proof.Machine

/-! ## The counter after several increments -/

/-- Word 12 wraps exactly from `0xFFFFFFFF`. -/
theorem add_one_eq_zero_iff_eq (x : Word) : x + 1#32 = 0#32 ↔ x = 0xFFFFFFFF#32 :=
  (add_one_eq_zero_iff x).trans (BitVec.toNat_eq (x := x) (y := 0xFFFFFFFF#32)).symm

theorem toNat_add_one (x : Word) : (x + 1#32).toNat = (x.toNat + 1) % 2 ^ 32 := BitVec.toNat_add x 1#32

/-- The carries out of word 12 in `n + 1` increments: that of the first, and those of the other `n`. -/
theorem carry_succ (x : Word) (n : Nat) :
    (x.toNat + (n + 1)) / 2 ^ 32 = (if x + 1#32 = 0#32 then 1 else 0) + ((x + 1#32).toNat + n) / 2 ^ 32 := by
  have hx := x.isLt
  simp only [add_one_eq_zero_iff, toNat_add_one]
  split <;> omega

/-- There is a carry in `n + 1` increments where the first wraps or the other `n` carry. -/
theorem carries_succ_iff (x : Word) (n : Nat) :
    2 ^ 32 ≤ x.toNat + (n + 1) ↔ x + 1#32 = 0#32 ∨ 2 ^ 32 ≤ (x + 1#32).toNat + n := by
  have hx := x.isLt
  rw [add_one_eq_zero_iff, toNat_add_one]
  omega

/-- No word of the state but 12 and 13 changes in an increment (R150). -/
theorem counterIncrement_keeps_words (carry : Bool) (st : Stream) (i : Fin 16) (h12 : i ≠ 12) (h13 : i ≠ 13) :
    (counterIncrement carry st).S[i] = st.S[i] :=
  counterIncrement_other carry st i.val i.isLt (fun e => h12 (Fin.ext e)) (fun e => h13 (Fin.ext e))

/-- Word 13 counts the carries out of word 12, where it counts at all (R151, R152). -/
theorem advance_high (carry : Bool) (n : Nat) (st : Stream) :
    (advance carry n st).S[13].toNat =
      (st.S[13].toNat + if st.layout = .ext ∨ carry = true then (st.S[12].toNat + n) / 2 ^ 32 else 0) % 2 ^ 32 := by
  induction n generalizing st with
  | zero =>
    have h12 := st.S[12].isLt
    have h13 := st.S[13].isLt
    simp only [advance]
    split <;> omega
  | succ n ih =>
    rw [advance_succ, ih, counterIncrement_layout, counterIncrement_low, counterIncrement_high, carry_succ]
    by_cases hcount : st.layout = .ext ∨ carry = true
    · by_cases hwrap : st.S[12] + 1#32 = 0#32 <;> simp [hcount, hwrap, Nat.add_assoc]
    · simp [hcount]

/-- `WRAP` is set exactly by a carry out of word 12 (R153). -/
theorem advance_wrap (carry : Bool) (n : Nat) (st : Stream) :
    (advance carry n st).wrap = (st.wrap || decide (2 ^ 32 ≤ st.S[12].toNat + n)) := by
  induction n generalizing st with
  | zero =>
    have h12 := st.S[12].isLt
    rw [decide_eq_false (by omega), Bool.or_false, advance]
  | succ n ih =>
    rw [advance_succ, ih, counterIncrement_wrap, counterIncrement_low, Bool.or_assoc, ← Bool.decide_or]
    simp only [carries_succ_iff]

/-- In `EXT` the two words count as one 64-bit number (R151). -/
theorem advance_counter64 (carry : Bool) (n : Nat) {st : Stream} (hl : st.layout = .ext) :
    counter64 (advance carry n st).S = (counter64 st.S + n) % 2 ^ 64 := by
  rw [counter64, counter64, advance_high, advance_low, if_pos (.inl hl)]
  omega

/-! ## The counter after several keystream bytes -/

/-- The counter does not see the buffered block or the position. -/
theorem counterIncrement_setBuffer (carry : Bool) (st : Stream) (b : KeystreamBlock) (k : BitVec 6) :
    counterIncrement carry { st with kbuf := b, kpos := k } = { counterIncrement carry st with kbuf := b, kpos := k } := by
  simp only [counterIncrement_eq]

theorem advance_setBuffer (carry : Bool) (n : Nat) (st : Stream) (b : KeystreamBlock) (k : BitVec 6) :
    advance carry n { st with kbuf := b, kpos := k } = { advance carry n st with kbuf := b, kpos := k } := by
  induction n generalizing st with
  | zero => rfl
  | succ n ih => rw [advance_succ, advance_succ, counterIncrement_setBuffer, ih]

/-- A byte from an empty buffer takes one block, and leaves 63 bytes of it. -/
theorem blocksFor_zero_succ (n : Nat) : blocksFor 0 (n + 1) = blocksFor 1 n + 1 := by
  rw [blocksFor, blocksFor, if_pos rfl, if_neg one_ne_zero]
  omega

/-- A byte from the buffer takes no block. -/
theorem blocksFor_succ {k : BitVec 6} (hk : k ≠ 0#6) (n : Nat) :
    blocksFor k.toNat (n + 1) = blocksFor (k + 1#6).toNat n := by
  have hlt := k.isLt
  have hpos : k.toNat ≠ 0 := fun h => hk (BitVec.eq_of_toNat_eq h)
  have hadd : (k + 1#6).toNat = (k.toNat + 1) % 64 := by simp [BitVec.toNat_add]
  rw [hadd, blocksFor, blocksFor]
  split <;> split <;> omega

/-- From an empty position `n` bytes take `ceil(n / 64)` blocks (R155). -/
theorem blocksFor_zero (n : Nat) : blocksFor 0 n = (n + 63) / 64 := rfl

/-- After `n` keystream bytes the stream is that after `blocksFor` increments, but for the buffered block and the position
(R155, R162). -/
theorem takeKeystream_eq_advance (carry : Bool) (n : Nat) (st : Stream) :
    ∃ b, (takeKeystream carry n st).2 =
      { advance carry (blocksFor st.kpos.toNat n) st with kbuf := b, kpos := st.kpos + BitVec.ofNat 6 n } := by
  induction n generalizing st with
  | zero =>
    have hnone : blocksFor st.kpos.toNat 0 = 0 := by simp [blocksFor]
    exact ⟨st.kbuf, by simp [hnone, advance]⟩
  | succ n ih =>
    obtain ⟨b, hb⟩ := ih (nextKeystreamByte carry st).2
    refine ⟨b, ?_⟩
    have hpos : st.kpos + 1#6 + BitVec.ofNat 6 n = st.kpos + BitVec.ofNat 6 (n + 1) := by
      rw [BitVec.add_assoc, ← BitVec.ofNat_add, Nat.add_comm 1 n]
    rw [takeKeystream_succ, hb, nextKeystreamByte_kpos, hpos]
    by_cases hk : st.kpos = 0#6
    · rw [nextKeystreamByte_fresh hk, refill_eq, advance_setBuffer carry _ (counterIncrement carry st), hk]
      exact congrArg (fun m => { advance carry m st with kbuf := b, kpos := 0#6 + BitVec.ofNat 6 (n + 1) })
        (blocksFor_zero_succ n).symm
    · rw [nextKeystreamByte_buffered hk, advance_setBuffer carry _ st st.kbuf, blocksFor_succ hk]

/-! ## The bytes one transaction moves -/

/-- The keystream bytes that a command with `LEN` = `n` moves when it ends with code `e`. -/
def commandBytes (i : Instr) (n : Nat) (e : ErrCode) : Nat :=
  match i with
  | .nop => 0
  | .init _ _ => 0
  | .encrypt => if e = .ok then n else 0
  | .keystream => if e = .ok then n else 0

theorem commandBytes_of_error {e : ErrCode} (he : e ≠ .ok) (i : Instr) (n : Nat) : commandBytes i n e = 0 := by
  cases i <;> simp [commandBytes, he]

theorem commandBytes_zero (i : Instr) (e : ErrCode) : commandBytes i 0 e = 0 := by
  cases i <;> simp [commandBytes]

theorem bytesMoved_of_no_command {x : Txn} {s t : State} (hc : commandOf x s = none) : bytesMoved x s t = 0 := by
  simp only [bytesMoved, hc]

theorem bytesMoved_of_illegal {x : Txn} {s t : State} {w : Word} {e : DecodeError} (hc : commandOf x s = some w)
    (hd : decode w = .error e) : bytesMoved x s t = 0 := by
  simp only [bytesMoved, hc, hd]

theorem bytesMoved_of_command {x : Txn} {s t : State} {w : Word} {i : Instr} (hc : commandOf x s = some w)
    (hd : decode w = .ok i) : bytesMoved x s t = commandBytes i s.len.toNat t.err := by
  cases i <;> simp only [bytesMoved, hc, hd, commandBytes]

/-- A command that is no successful `INIT` takes as many keystream bytes as it moves (R154, R162, R163). -/
theorem exec_stream {i : Instr} {s t : State} (h : exec i s = .next t) :
    ((∃ klen nlen, i = .init klen nlen) ∧ t.err = .ok) ∨
      t.stream = (stateKeystream s (commandBytes i s.len.toNat t.err)).2 := by
  cases exec_cases h with
  | error e he => exact .inr (by rw [commandBytes_of_error he]; rfl)
  | nop hi => exact .inr (by rw [hi]; rfl)
  | empty _ _ hl => exact .inr (by rw [show s.len.toNat = 0 by simp [hl], commandBytes_zero]; rfl)
  | init n hi => exact .inl ⟨⟨32, n, hi⟩, rfl⟩
  | encrypt hi | keystream hi => exact .inr (by rw [hi]; rfl)

/-- The same of a command word, by the transaction that issues it: `u` is the state after the transaction, and it has the result
code of the state after the command. -/
theorem issueCommand_stream {x : Txn} {w : Word} {s t u : State} (hc : commandOf x s = some w) (herr : u.err = t.err)
    (as : List Nat) (h : issueCommand w { s with raced := as } = .next t) :
    initialises x s u ∨ t.stream = (stateKeystream s (bytesMoved x s u)).2 := by
  cases issueCommand_cases h with
  | illegal e hd => exact .inr (by rw [bytesMoved_of_illegal hc hd]; rfl)
  | legal i _ hd he =>
    rw [bytesMoved_of_command hc hd, herr]
    rcases exec_stream he with ⟨⟨klen, nlen, hinit⟩, hok⟩ | hstream
    · exact .inl ⟨w, klen, nlen, hc, hinit ▸ hd, herr.trans hok⟩
    · exact .inr hstream

/-- A transaction that neither resets the engine nor begins a stream takes as many keystream bytes as it moves. -/
theorem perform_stream {x : Txn} {s t : State} (h : perform x s = .next t) :
    resetsEngine x s = true ∨ initialises x s t ∨ t.stream = (stateKeystream s (bytesMoved x s t)).2 := by
  cases perform_cases h with
  | silent _ _ hc | operand _ _ _ _ _ _ _ _ _ _ _ hc | quiet _ _ _ _ _ hc =>
    exact .inr (.inr (by rw [bytesMoved_of_no_command hc]; rfl))
  | memory _ _ hx => exact .inr (.inr (by rw [bytesMoved_of_no_command (by rw [hx]; rfl)]; rfl))
  | command _ _ _ hc hi => exact .inr (issueCommand_stream hc rfl s.raced hi)
  | race _ _ _ u _ _ hc hi => exact .inr (issueCommand_stream (t := u) hc rfl _ hi)
  | reset _ hr | interrupted _ _ _ hr => exact .inl hr

theorem step_stream {s t : State} {x : Txn} {rest : List Txn} (hbus : s.bus = x :: rest) (h : step s = .next t) :
    resetsEngine x s = true ∨ initialises x s t ∨ t.stream = (stateKeystream s (bytesMoved x s t)).2 :=
  perform_stream (s := { s with bus := rest }) (step_next hbus h).2

/-! ## A run on one stream -/

/-- A run on one stream is one long taking of keystream bytes, on one platform. -/
theorem Streamed.stream {s t : State} {n : Nat} (h : Streamed s n t) :
    t.plat = s.plat ∧ t.stream = (stateKeystream s n).2 := by
  induction h with
  | start => exact ⟨rfl, rfl⟩
  | idle _ empty next ih =>
    cases (idleEngineIsConstant _ empty).symm.trans next
    exact ih
  | @more n t u x rest _ first next keeps same ih =>
    obtain ⟨hplat, hstream⟩ := ih
    refine ⟨(perform_plat_bus (step_next first next).2).1.trans hplat, ?_⟩
    rcases step_stream first next with hreset | hinit | hmoved
    · exact absurd (keeps.symm.trans hreset) (by decide)
    · exact absurd hinit same
    · rw [hmoved, stateKeystream, stateKeystream, takeKeystream_add, hplat, hstream, stateKeystream]

/-! ## The obligations -/

/-- Settles O19: an increment is an advance by one. -/
theorem extCounterIncrement : Obligations.ExtCounterIncrement := fun carry st hl =>
  ⟨advance_counter64 carry 1 hl, counterIncrement_keeps_words carry st⟩

/-- Settles O20: field by field. -/
theorem ietfCounterIncrement : Obligations.IetfCounterIncrement := by
  intro carry st hl
  refine ⟨advance_low carry 1 st, ?_, counterIncrement_keeps_words carry st, fun hmax => ?_⟩
  · simp [counterIncrement_high, add_one_eq_zero_iff_eq, hl]
  · simp [counterIncrement_wrap, hmax]

/-- Settles O21: the flag by the formula of one increment, and its stickiness because a transaction that keeps the stream only
takes keystream bytes. -/
theorem wrapIsSticky : Obligations.WrapIsSticky := by
  refine ⟨fun carry st => by simp [counterIncrement_wrap, counterIncrement_low], fun s t x rest hwrap hbus h => ?_⟩
  rcases step_stream hbus h with hreset | hinit | hmoved
  · exact .inr (.inl hreset)
  · exact .inr (.inr hinit)
  · exact .inl (hmoved ▸ takeKeystream_wrap _ _ hwrap)

/-- Settles O26: the run is one taking of `n` bytes from an empty position, which is `ceil(n / 64)` increments. -/
theorem counterAdvancesWithBytesMoved : Obligations.CounterAdvancesWithBytesMoved := by
  intro s t n hfresh hrun
  obtain ⟨b, hb⟩ := takeKeystream_eq_advance s.plat.ietfWrapCarry n s.stream
  rw [← stateKeystream, ← hrun.stream.2, hfresh, BitVec.toNat_zero, blocksFor_zero] at hb
  rw [hb]
  refine ⟨by simp, advance_layout _ _ _, advance_counter64 _ _, fun hl => ⟨advance_low _ _ _, ?_⟩, advance_wrap _ _ _⟩
  simp [advance_high, hl]

end Sys2Proof.Machine
end

