-- ==== Sys2Proof/Proofs/Keystream.lean ====
section
/-! PROOFS. The keystream by position (R161 to R163, R170). The one idea: a keystream byte is the byte of `KBUF` at the old
position, as the sequencer leaves `KBUF`; and from an empty position `KBUF` after `m + 1` bytes is the block that is
`m / 64` increments on. -/

namespace Sys2Proof.Machine

/-! ## One byte -/

theorem kpos_add_one (k : BitVec 6) : k + 1#6 = BitVec.ofNat 6 ((k.toNat + 1) % 64) :=
  BitVec.eq_of_toNat_eq (by simp [BitVec.toNat_add])

/-- The byte is that of the buffer the sequencer leaves, at the position it began from. -/
theorem nextKeystreamByte_fst (carry : Bool) (st : Stream) :
    (nextKeystreamByte carry st).1 = (nextKeystreamByte carry st).2.kbuf[st.kpos.toNat]'(st.kpos.isLt) := by
  by_cases h : st.kpos = 0#6
  · simp [nextKeystreamByte_fresh h, h]
  · simp [nextKeystreamByte_buffered h]

/-! ## Several bytes, from any position -/

section
variable (carry : Bool) (n : Nat) (st : Stream)

/-- The last of `n + 1` bytes is the byte after the other `n`. -/
theorem takeKeystream_succ_last :
    takeKeystream carry (n + 1) st =
      ((takeKeystream carry n st).1 ++ [(nextKeystreamByte carry (takeKeystream carry n st).2).1],
        (nextKeystreamByte carry (takeKeystream carry n st).2).2) :=
  takeKeystream_add carry n 1 st

theorem takeKeystream_kpos : (takeKeystream carry n st).2.kpos = st.kpos + BitVec.ofNat 6 n := by
  obtain ⟨b, hb⟩ := takeKeystream_eq_advance carry n st
  rw [hb]

theorem takeKeystream_S : (takeKeystream carry n st).2.S = (advance carry (blocksFor st.kpos.toNat n) st).S := by
  obtain ⟨b, hb⟩ := takeKeystream_eq_advance carry n st
  rw [hb]

theorem takeKeystream_wrap_eq_advance :
    (takeKeystream carry n st).2.wrap = (advance carry (blocksFor st.kpos.toNat n) st).wrap := by
  obtain ⟨b, hb⟩ := takeKeystream_eq_advance carry n st
  rw [hb]

end

/-! ## Several bytes, from an empty position -/

section
variable {carry : Bool} {st : Stream}

theorem takeKeystream_kpos_fresh (h : st.kpos = 0#6) (n : Nat) :
    (takeKeystream carry n st).2.kpos = BitVec.ofNat 6 n := by
  rw [takeKeystream_kpos, h, BitVec.zero_add]

theorem takeKeystream_S_fresh (h : st.kpos = 0#6) (n : Nat) :
    (takeKeystream carry n st).2.S = (advance carry ((n + 63) / 64) st).S := by
  rw [takeKeystream_S, h, BitVec.toNat_zero, blocksFor_zero]

/-- The buffered block after `m + 1` bytes: a new one where `m` bytes use up whole blocks, and otherwise the one before. -/
theorem takeKeystream_kbuf_fresh (h : st.kpos = 0#6) (m : Nat) :
    (takeKeystream carry (m + 1) st).2.kbuf = block (advance carry (m / 64) st).S := by
  induction m with
  | zero => simp [takeKeystream_succ, nextKeystreamByte_fresh h, advance]
  | succ m ih =>
    have hpos : (takeKeystream carry (m + 1) st).2.kpos = 0#6 ↔ (m + 1) % 64 = 0 := by
      rw [takeKeystream_kpos_fresh h, BitVec.toNat_eq]
      simp
    rw [takeKeystream_succ_last]
    by_cases hk : (m + 1) % 64 = 0
    · rw [nextKeystreamByte_fresh (hpos.2 hk)]
      refine (refill_kbuf carry _).trans ?_
      rw [takeKeystream_S_fresh h, show (m + 1 + 63) / 64 = (m + 1) / 64 by omega]
    · rw [nextKeystreamByte_buffered (mt hpos.1 hk), show (m + 1) / 64 = m / 64 by omega]
      exact ih

/-- Byte `m` is byte `m mod 64` of the block that is `m / 64` increments on (R161). -/
theorem takeKeystream_getElem?_fresh (h : st.kpos = 0#6) {n m : Nat} (hm : m < n) :
    (takeKeystream carry n st).1[m]? =
      some ((block (advance carry (m / 64) st).S)[m % 64]'(Nat.mod_lt m (by decide))) := by
  obtain ⟨r, rfl⟩ := Nat.exists_eq_add_of_lt hm
  have hlast : (nextKeystreamByte carry (takeKeystream carry m st).2).2.kbuf = block (advance carry (m / 64) st).S := by
    rw [← takeKeystream_kbuf_fresh h, takeKeystream_succ_last]
  have hpos : (takeKeystream carry m st).2.kpos.toNat = m % 64 := by
    rw [takeKeystream_kpos_fresh h]; simp
  rw [show m + r + 1 = m + 1 + r by omega, takeKeystream_add, takeKeystream_succ_last]
  simp [nextKeystreamByte_fst, hlast, hpos]

/-- At most 64 bytes are the first bytes of one block. -/
theorem takeKeystream_fst_of_le_64 (h : st.kpos = 0#6) {n : Nat} (hn : n ≤ 64) :
    (takeKeystream carry n st).1 = (block st.S).toList.take n := by
  refine List.ext_getElem? fun m => ?_
  rcases lt_or_ge m n with hm | hm
  · have hm64 : m < 64 := by omega
    rw [takeKeystream_getElem?_fresh h hm]
    simp [Nat.div_eq_of_lt hm64, Nat.mod_eq_of_lt hm64, advance, hm, hm64]
  · rw [List.getElem?_eq_none (by simpa using hm), List.getElem?_eq_none (by simp; omega)]

/-- The position, word 12 and the 64-bit counter after `n` bytes, which take `b` blocks. -/
theorem takeKeystream_counter_fresh (h : st.kpos = 0#6) {n b : Nat} (hb : (n + 63) / 64 = b) :
    (takeKeystream carry n st).2.kpos = BitVec.ofNat 6 n ∧
    (takeKeystream carry n st).2.S[12] = st.S[12] + BitVec.ofNat 32 b ∧
    (st.layout = .ext → counter64 (takeKeystream carry n st).2.S = (counter64 st.S + b) % 2 ^ 64) := by
  rw [takeKeystream_S_fresh h, hb]
  refine ⟨takeKeystream_kpos_fresh h n, BitVec.eq_of_toNat_eq ?_, advance_counter64 carry b⟩
  rw [advance_low, BitVec.toNat_add, BitVec.toNat_ofNat, Nat.add_mod_mod]

end

/-! ## One command -/

/-- A successful `ENCRYPT` or `KEYSTREAM` leaves the stream after `LEN` keystream bytes (R162, R163). -/
theorem stream_of_exec_storing {i : Instr} {s t : State} (hi : i = .encrypt ∨ i = .keystream) (h : exec i s = .next t)
    (hok : t.err = .ok) : t.stream = (stateKeystream s s.len.toNat).2 := by
  rcases exec_stream h with ⟨⟨klen, nlen, hinit⟩, -⟩ | hstream
  · simp [hinit] at hi
  · rcases hi with rfl | rfl <;> simpa [commandBytes, hok] using hstream

/-! ## The obligations -/

/-- Settles O22: the two cases of the sequencer. -/
theorem nextByteRefillsOnlyWhenEmpty : Obligations.NextByteRefillsOnlyWhenEmpty := by
  refine fun carry st => ⟨fun h => ?_, fun h => ?_⟩
  · rw [nextKeystreamByte_fresh h, refill_eq]
    exact ⟨rfl, rfl⟩
  · rw [nextKeystreamByte_buffered h, kpos_add_one]
    exact ⟨rfl, rfl⟩

/-- Settles O23: the byte stands in the buffered block, which is the one `m / 64` increments on. -/
theorem keystreamByPosition : Obligations.KeystreamByPosition :=
  fun _ _ _ _ hfresh hm => takeKeystream_getElem?_fresh hfresh hm

/-- Settles O24: the command takes `LEN` keystream bytes, and these are `blocksFor` increments. -/
theorem blocksOfOneCommand : Obligations.BlocksOfOneCommand := by
  intro i s t hi h hok
  rw [stream_of_exec_storing hi h hok, stateKeystream]
  refine ⟨?_, takeKeystream_S _ _ _, takeKeystream_wrap_eq_advance _ _ _, takeKeystream_layout _ _ _⟩
  simp [takeKeystream_kpos, BitVec.toNat_add]

/-- Settles O25: the bytes, the buffered block and the counter after 63, 64 and 65 keystream bytes from an empty position. -/
theorem blockSizeBoundaries : Obligations.BlockSizeBoundaries := by
  intro i s t hi hfresh h hok
  dsimp only
  rw [stream_of_exec_storing hi h hok, stateKeystream]
  refine ⟨fun hl => ?_, fun hl => ?_, fun hl => ?_⟩
  · rw [show s.len.toNat = 63 by simp [hl]]
    exact ⟨takeKeystream_fst_of_le_64 hfresh (by decide), takeKeystream_kbuf_fresh hfresh 62,
      takeKeystream_counter_fresh hfresh rfl⟩
  · rw [show s.len.toNat = 64 by simp [hl]]
    refine ⟨?_, takeKeystream_kbuf_fresh hfresh 63, takeKeystream_counter_fresh hfresh rfl⟩
    rw [takeKeystream_fst_of_le_64 hfresh le_rfl, List.take_of_length_le (by simp)]
  · rw [show s.len.toNat = 65 by simp [hl]]
    refine ⟨?_, takeKeystream_kbuf_fresh hfresh 64, takeKeystream_counter_fresh hfresh rfl⟩
    have hempty : (takeKeystream s.plat.ietfWrapCarry 64 s.stream).2.kpos = 0#6 := takeKeystream_kpos_fresh hfresh 64
    rw [takeKeystream_succ_last, nextKeystreamByte_fresh hempty, takeKeystream_S_fresh hfresh,
      takeKeystream_fst_of_le_64 hfresh le_rfl, List.take_of_length_le (by simp)]
    rfl

end Sys2Proof.Machine
end

