-- ==== Sys2Proof/Proofs/Apply.lean ====
section
/-! PROOFS. `NOP`, `ENCRYPT` and `KEYSTREAM` (R160 to R171). Success is said once for each command: the stream is initialised and,
unless `LEN` is 0, the buffers are usable; and then the state is that after the command's effect, which for `LEN` = 0 is no
effect at all. The statements compare such effects byte by byte, through the keystream byte that each byte stands for. -/

namespace Sys2Proof.Machine

/-! ## Usable buffers -/

/-- The buffer passes the checks of a command: it is valid (R56) and plain (R57). -/
structure UsableBuffer (p : Platform) (a n : Nat) : Prop where
  valid : a + n ≤ p.memSize
  plain : plainBuffer p a n

/-- A part of a usable buffer is usable. -/
theorem UsableBuffer.part {p : Platform} {a n b m : Nat} (h : UsableBuffer p a n) (hlow : a ≤ b) (hhigh : b + m ≤ a + n) :
    UsableBuffer p b m where
  valid := hhigh.trans h.valid
  plain x h1 h2 := h.plain x (hlow.trans h1) (h2.trans_le hhigh)

/-! ## When a command succeeds, and what it does then -/

/-- The checks of `ENCRYPT` pass (R162): a stream, and usable buffers unless there is nothing to do. -/
structure EncryptAllowed (s : State) : Prop where
  initd : s.initd = true
  src : s.len ≠ 0#32 → UsableBuffer s.plat s.src.toNat s.len.toNat
  dst : s.len ≠ 0#32 → UsableBuffer s.plat s.dst.toNat s.len.toNat

/-- The checks of `KEYSTREAM` pass (R163): it does not look at the source. -/
structure KeystreamAllowed (s : State) : Prop where
  initd : s.initd = true
  dst : s.len ≠ 0#32 → UsableBuffer s.plat s.dst.toNat s.len.toNat

/-- With `LEN` = 0 the effect of `ENCRYPT` is none (R169). -/
theorem encryptEffect_empty {s : State} (hl : s.len = 0#32) : encryptEffect s = s := by
  have hlen : s.len.toNat = 0 := (len_eq_zero_iff s).1 hl
  have hbytes : encryptBytes s = [] := List.eq_nil_of_length_eq_zero (by simpa using hlen)
  have hlie : partialOverlap s.src.toNat s.dst.toNat 0 = false := partialOverlap_eq_false (by unfold sameOrDisjoint; omega)
  simp [encryptEffect, hbytes, hlen, hlie, stateKeystream, Memory.writeBytes]

/-- With `LEN` = 0 the effect of `KEYSTREAM` is none. -/
theorem keystreamEffect_empty {s : State} (hl : s.len = 0#32) : keystreamEffect s = s := by
  simp [keystreamEffect, (len_eq_zero_iff s).1 hl, stateKeystream, Memory.writeBytes]

/-- `ENCRYPT` with its checks passed has its effect. -/
theorem exec_encrypt_of_allowed {s : State} (h : EncryptAllowed s) :
    exec .encrypt s = .next (complete (encryptEffect s)) := by
  obtain ⟨h0, hsrc, hdst⟩ := h
  by_cases hl : s.len = 0#32
  · simp [exec, execEncrypt, h0, hl, encryptEffect_empty hl]
  · obtain ⟨hs, hps⟩ := hsrc hl
    obtain ⟨hd, hpd⟩ := hdst hl
    rw [← bufferValid_iff] at hs hd
    rw [← touchesDevice_eq_false] at hps hpd
    simp [exec, execEncrypt, h0, hl, hs, hd, hps, hpd]

/-- `KEYSTREAM` with its checks passed has its effect. -/
theorem exec_keystream_of_allowed {s : State} (h : KeystreamAllowed s) :
    exec .keystream s = .next (complete (keystreamEffect s)) := by
  obtain ⟨h0, hdst⟩ := h
  by_cases hl : s.len = 0#32
  · simp [exec, execKeystream, h0, hl, keystreamEffect_empty hl]
  · obtain ⟨hd, hpd⟩ := hdst hl
    rw [← bufferValid_iff] at hd
    rw [← touchesDevice_eq_false] at hpd
    simp [exec, execKeystream, h0, hl, hd, hpd]

/-- An `ENCRYPT` that reports no error has passed its checks: a buffer that is not plain has it refused. -/
theorem encryptAllowed_of_ok {s t : State} (h : exec .encrypt s = .next t) (hok : t.err = .ok) : EncryptAllowed s := by
  cases exec_cases h with
  | error _ he => exact absurd hok he
  | nop hi | init _ hi | keystream hi => cases hi
  | empty _ h0 hl => exact ⟨h0, fun hne => absurd hl hne, fun hne => absurd hl hne⟩
  | encrypt _ h0 hl hs hd =>
    have hplain : plainBuffer s.plat s.src.toNat s.len.toNat ∧ plainBuffer s.plat s.dst.toNat s.len.toNat := by
      by_contra hno
      cases (execEncrypt_refused h0 hl hs hd hno).symm.trans h
    exact ⟨h0, fun _ => ⟨hs, hplain.1⟩, fun _ => ⟨hd, hplain.2⟩⟩

/-- So has a `KEYSTREAM`. -/
theorem keystreamAllowed_of_ok {s t : State} (h : exec .keystream s = .next t) (hok : t.err = .ok) :
    KeystreamAllowed s := by
  cases exec_cases h with
  | error _ he => exact absurd hok he
  | nop hi | init _ hi | encrypt hi => cases hi
  | empty _ h0 hl => exact ⟨h0, fun hne => absurd hl hne⟩
  | keystream _ h0 hl hd =>
    have hplain : plainBuffer s.plat s.dst.toNat s.len.toNat := by
      by_contra hno
      cases (execKeystream_refused h0 hl hd hno).symm.trans h
    exact ⟨h0, fun _ => ⟨hd, hplain⟩⟩

theorem eq_of_exec_encrypt_ok {s t : State} (h : exec .encrypt s = .next t) (hok : t.err = .ok) :
    t = complete (encryptEffect s) :=
  Host.Outcome.next.inj (h.symm.trans (exec_encrypt_of_allowed (encryptAllowed_of_ok h hok)))

theorem eq_of_exec_keystream_ok {s t : State} (h : exec .keystream s = .next t) (hok : t.err = .ok) :
    t = complete (keystreamEffect s) :=
  Host.Outcome.next.inj (h.symm.trans (exec_keystream_of_allowed (keystreamAllowed_of_ok h hok)))

/-! ## The bytes written -/

section
variable {s : State} {i : Nat}

/-- A destination byte xor its source byte is the keystream byte (R162). -/
theorem encryptEffect_keystream_byte (hwf : s.mem.wf) (hi : i < s.len.toNat)
    (hlie : sameOrDisjoint s.src.toNat s.dst.toNat s.len.toNat) (hr : s.src.toNat + i ∉ s.raced) :
    (stateKeystream s s.len.toNat).1[i]? =
      some ((encryptEffect s).mem.read (s.dst.toNat + i) ^^^ s.mem.read (s.src.toNat + i)) := by
  have hlen : i < (stateKeystream s s.len.toNat).1.length := by simpa [stateKeystream] using hi
  rw [encryptEffect_read_inside hwf hi hlie hr, List.getElem?_eq_getElem hlen, BitVec.xor_comm, ← BitVec.xor_assoc,
    BitVec.xor_self, BitVec.zero_xor]

/-- A destination byte is the keystream byte (R163). -/
theorem keystreamEffect_keystream_byte (hwf : s.mem.wf) (hi : i < s.len.toNat) :
    (stateKeystream s s.len.toNat).1[i]? = some ((keystreamEffect s).mem.read (s.dst.toNat + i)) := by
  have hlen : i < (stateKeystream s s.len.toNat).1.length := by simpa [stateKeystream] using hi
  rw [keystreamEffect_mem, Memory.read_writeBytes_inside hwf hlen, List.getElem?_eq_getElem hlen]

theorem keystreamEffect_read_outside {a : Nat} (hwf : s.mem.wf)
    (ha : a < s.dst.toNat ∨ s.dst.toNat + s.len.toNat ≤ a) : (keystreamEffect s).mem.read a = s.mem.read a :=
  Memory.read_writeBytes_outside hwf (by simpa [stateKeystream] using ha)

end

/-- The two byte equations of `ENCRYPT` under the same keystream: the bytes written differ as the source bytes do. -/
theorem encryptEffect_xor_source_congr {s u : State} {i : Nat} (hwf : s.mem.wf) (hwf' : u.mem.wf) (hr : s.raced = [])
    (hr' : u.raced = []) (hlie : sameOrDisjoint s.src.toNat s.dst.toNat s.len.toNat)
    (hlie' : sameOrDisjoint u.src.toNat u.dst.toNat u.len.toNat) (hlen : u.len = s.len) (hi : i < s.len.toNat)
    (hks : stateKeystream u s.len.toNat = stateKeystream s s.len.toNat) :
    (encryptEffect u).mem.read (u.dst.toNat + i) ^^^ u.mem.read (u.src.toNat + i) =
      (encryptEffect s).mem.read (s.dst.toNat + i) ^^^ s.mem.read (s.src.toNat + i) := by
  have hu := encryptEffect_keystream_byte hwf' (i := i) (by rwa [hlen]) hlie' (by simp [hr'])
  rw [hlen, hks, encryptEffect_keystream_byte hwf hi hlie (by simp [hr])] at hu
  exact (Option.some.inj hu).symm

/-! ## One command over two parts of its message -/

/-- With no other masters, engine reads are the bytes of memory (R53). -/
theorem engineReads_eq_map_read {s : State} (hr : s.raced = []) (k a n : Nat) :
    engineReads s k a n = (List.range' a n).map s.mem.read := by
  induction n generalizing k a with
  | zero => rfl
  | succ n ih => rw [engineReads, ih, List.range'_succ, List.map_cons, engineRead_plain (by simp [hr])]

/-- With no other masters and no partial overlap, `ENCRYPT` writes memory's source bytes xor the keystream (R162). -/
theorem encryptBytes_eq {s : State} (hr : s.raced = []) (hlie : sameOrDisjoint s.src.toNat s.dst.toNat s.len.toNat) :
    encryptBytes s =
      List.zipWith (· ^^^ ·) ((List.range' s.src.toNat s.len.toNat).map s.mem.read)
        (stateKeystream s s.len.toNat).1 := by
  rw [encryptBytes, partialOverlap_eq_false hlie, if_neg (by simp), sourceBytes, engineReads_eq_map_read hr]

/-- The state before the first of two commands over a message: `LEN` covers `m` bytes only. -/
abbrev State.firstPart (s : State) (m : Nat) : State := { s with len := BitVec.ofNat 32 m }

/-- The state before the second: `SRC` and `DST` are advanced by the `m` bytes of the first, and `LEN` covers the rest (R165). -/
abbrev State.secondPart (s : State) (m n : Nat) : State :=
  { complete (encryptEffect (s.firstPart m)) with
    src := s.src + BitVec.ofNat 32 m
    dst := s.dst + BitVec.ofNat 32 m
    len := BitVec.ofNat 32 n }

/-- Where the rest is not empty, advancing a usable buffer's address by the first part does not wrap. -/
theorem UsableBuffer.toNat_advance {p : Platform} {x : Word} {m n : Nat} (h : UsableBuffer p x.toNat (m + n))
    (hp : p.memSize ≤ 2 ^ 32) (hn : 0 < n) : (x + BitVec.ofNat 32 m).toNat = x.toNat + m := by
  have hvalid := h.valid
  rw [BitVec.toNat_add, BitVec.toNat_ofNat, Nat.add_mod_mod, Nat.mod_eq_of_lt (by omega)]

theorem memSize_le_of_wf {p : Platform} (h : p.wf = true) : p.memSize ≤ 2 ^ 32 := by
  simp only [Platform.wf, Bool.and_eq_true, decide_eq_true_eq] at h
  obtain ⟨⟨⟨-, hsize⟩, -⟩, -⟩ := h
  exact hsize

/-- Parts of buffers that are the same or disjoint, cut alike, are so too. -/
theorem sameOrDisjoint_part {a b n : Nat} (h : sameOrDisjoint a b n) {k l : Nat} (hkl : k + l ≤ n) :
    sameOrDisjoint (a + k) (b + k) l := by
  rcases h with h | h | h <;> unfold sameOrDisjoint <;> omega

/-- A part that has a byte is a part of a command that has one. -/
theorem len_ne_zero_of_part {s : State} {k : Nat} (h : k ≤ s.len.toNat) (hk : BitVec.ofNat 32 k ≠ 0#32) :
    0 < k ∧ s.len ≠ 0#32 := by
  have hpos : 0 < k := Nat.pos_of_ne_zero fun h0 => hk (by rw [h0])
  exact ⟨hpos, fun h0 => by have := (len_eq_zero_iff s).1 h0; omega⟩

section
variable {s : State} {m n : Nat} (hlen : s.len.toNat = m + n)
include hlen

/-- The lengths of both parts fit the register. -/
theorem toNat_ofNat_parts : (BitVec.ofNat 32 m).toNat = m ∧ (BitVec.ofNat 32 n).toNat = n := by
  have hlt := s.len.isLt
  rw [BitVec.toNat_ofNat, BitVec.toNat_ofNat, Nat.mod_eq_of_lt (by omega), Nat.mod_eq_of_lt (by omega)]
  exact ⟨rfl, rfl⟩

/-- The first command's checks pass: its buffers are parts of the whole command's. -/
theorem encryptAllowed_firstPart (h : EncryptAllowed s) : EncryptAllowed (s.firstPart m) := by
  obtain ⟨hm, -⟩ := toNat_ofNat_parts hlen
  refine ⟨h.initd, fun h0 => ?_, fun h0 => ?_⟩
  · exact (h.src (len_ne_zero_of_part (by omega) h0).2).part le_rfl (by simp only [hm]; omega)
  · exact (h.dst (len_ne_zero_of_part (by omega) h0).2).part le_rfl (by simp only [hm]; omega)

/-- So do the second command's. -/
theorem encryptAllowed_secondPart (h : EncryptAllowed s) (hp : s.plat.wf = true) :
    EncryptAllowed (s.secondPart m n) := by
  obtain ⟨-, hn⟩ := toNat_ofNat_parts hlen
  have part : ∀ x : Word, (s.len ≠ 0#32 → UsableBuffer s.plat x.toNat s.len.toNat) → BitVec.ofNat 32 n ≠ 0#32 →
      UsableBuffer s.plat (x + BitVec.ofNat 32 m).toNat (BitVec.ofNat 32 n).toNat := by
    intro x hx h0
    obtain ⟨hpos, hne⟩ := len_ne_zero_of_part (s := s) (by omega) h0
    have hwhole := hlen ▸ hx hne
    rw [hwhole.toNat_advance (memSize_le_of_wf hp) hpos, hn]
    exact hwhole.part (by omega) (by omega)
  exact ⟨h.initd, part s.src h.src, part s.dst h.dst⟩

/-- The second command ends with the stream of the whole (R165). -/
theorem encryptEffect_secondPart_stream : (encryptEffect (s.secondPart m n)).stream = (encryptEffect s).stream := by
  obtain ⟨hm, hn⟩ := toNat_ofNat_parts hlen
  simp [stateKeystream, hm, hn, hlen, takeKeystream_add]

/-- The two commands write the bytes of the whole, where neither address wraps: the first writes no source byte of the second. -/
theorem encryptBytes_parts (hwf : s.mem.wf) (hr : s.raced = []) (hlie : sameOrDisjoint s.src.toNat s.dst.toNat (m + n))
    (hsrc : (s.src + BitVec.ofNat 32 m).toNat = s.src.toNat + m)
    (hdst : (s.dst + BitVec.ofNat 32 m).toNat = s.dst.toNat + m) :
    encryptBytes s = encryptBytes (s.firstPart m) ++ encryptBytes (s.secondPart m n) := by
  obtain ⟨hm, hn⟩ := toNat_ofNat_parts hlen
  have hkept : (List.range' (s.src.toNat + m) n).map (s.secondPart m n).mem.read =
      (List.range' (s.src.toNat + m) n).map s.mem.read := by
    refine List.map_congr_left fun a ha => encryptEffect_read_outside (s := s.firstPart m) hwf ?_
    rw [List.mem_range'_1] at ha
    simp only [hm]
    rcases hlie with h | h | h <;> omega
  have hfirst : sameOrDisjoint s.src.toNat s.dst.toNat m := sameOrDisjoint_part hlie (k := 0) (by omega)
  have hsecond : sameOrDisjoint (s.src.toNat + m) (s.dst.toNat + m) n := sameOrDisjoint_part hlie le_rfl
  rw [encryptBytes_eq hr (hlen ▸ hlie), encryptBytes_eq (s := s.firstPart m) hr (by simpa only [hm] using hfirst),
    encryptBytes_eq (s := s.secondPart m n) hr (by simpa only [hn, hsrc, hdst] using hsecond)]
  simp only [hlen, hm, hn, hsrc, hkept, ← List.range'_append_1, List.map_append, stateKeystream, takeKeystream_add]
  rw [List.zipWith_append (by simp)]
  simp [stateKeystream, hm]

/-- The two commands leave the memory of the whole (R165). -/
theorem encryptEffect_secondPart_mem (hwf : s.mem.wf) (hr : s.raced = [])
    (hlie : sameOrDisjoint s.src.toNat s.dst.toNat (m + n)) (h : EncryptAllowed s) (hp : s.plat.wf = true) :
    (encryptEffect (s.secondPart m n)).mem = (encryptEffect s).mem := by
  rcases Nat.eq_zero_or_pos n with rfl | hpos
  · have hwhole : s.firstPart m = s := by
      rw [State.firstPart, ← Nat.add_zero m, ← hlen, BitVec.ofNat_toNat, BitVec.setWidth_eq]
    rw [encryptEffect_empty rfl]
    simp only [complete_mem, hwhole]
  · have hne : s.len ≠ 0#32 := fun h0 => by have := (len_eq_zero_iff s).1 h0; omega
    have hsize := memSize_le_of_wf hp
    obtain ⟨hm, -⟩ := toNat_ofNat_parts hlen
    have hsrc := (hlen ▸ h.src hne).toNat_advance hsize hpos
    have hdst := (hlen ▸ h.dst hne).toNat_advance hsize hpos
    simp only [encryptEffect_mem, complete_mem, hdst, encryptBytes_parts hlen hwf hr hlie hsrc hdst,
      Memory.writeBytes_append, encryptBytes_length, hm]

end

/-! ## The obligations -/

/-- Settles O27: the end of the command is its only effect. -/
theorem nopOnlyClearsErr : Obligations.NopOnlyClearsErr := fun _ => rfl

/-- Settles O33: with `LEN` = 0 both commands are allowed, and their effects are none. -/
theorem zeroLengthIsANoOp : Obligations.ZeroLengthIsANoOp := by
  intro s h0 hl
  have hencrypt : EncryptAllowed s := ⟨h0, absurd hl, absurd hl⟩
  have hkeystream : KeystreamAllowed s := ⟨h0, absurd hl⟩
  rw [exec_encrypt_of_allowed hencrypt, exec_keystream_of_allowed hkeystream, encryptEffect_empty hl,
    keystreamEffect_empty hl]
  exact ⟨rfl, rfl⟩

/-- Settles O37: the memory and the draws are those of `encryptEffect`. -/
theorem encryptResult : Obligations.EncryptResult := by
  intro s hwf h0 _ hs hd hps hpd
  have hallowed : EncryptAllowed s := ⟨h0, fun _ => ⟨hs, hps⟩, fun _ => ⟨hd, hpd⟩⟩
  refine ⟨(encryptEffect s).mem, (encryptEffect s).draws, exec_encrypt_of_allowed hallowed,
    fun _ ha => encryptEffect_read_outside hwf ha, fun hlie => ⟨?_, fun _ hi hr => ?_⟩⟩
  · simp [partialOverlap_eq_false hlie]
  · exact encryptEffect_keystream_byte hwf hi hlie hr

/-- Settles O38: the memory is that of `keystreamEffect`. -/
theorem keystreamResult : Obligations.KeystreamResult := fun s hwf h0 _ hd hpd =>
  ⟨(keystreamEffect s).mem, exec_keystream_of_allowed ⟨h0, fun _ => ⟨hd, hpd⟩⟩,
    fun _ ha => keystreamEffect_read_outside hwf ha, fun _ hi => keystreamEffect_keystream_byte hwf hi⟩

/-- Settles O41: both commands take the same keystream. -/
theorem keystreamXorSourceIsEncrypt : Obligations.KeystreamXorSourceIsEncrypt := by
  intro s t u hwf hr hlie ht hok hu hok'
  rw [eq_of_exec_keystream_ok ht hok, eq_of_exec_encrypt_ok hu hok']
  refine ⟨rfl, fun i hi => ?_⟩
  have hbyte := encryptEffect_keystream_byte hwf hi hlie (by simp [hr])
  rw [keystreamEffect_keystream_byte hwf hi, Option.some.injEq] at hbyte
  rw [complete_mem, complete_mem, hbyte, BitVec.xor_assoc, BitVec.xor_self, BitVec.xor_zero]

/-- Settles O42: the keystream is the same, and so is what it is xored with. -/
theorem encryptIsDeterminedByStreamAndSource : Obligations.EncryptIsDeterminedByStreamAndSource := by
  intro s s' t t' hwf hwf' hr hr' hstream hcarry hlen hsrc hlie hlie' h hok h' hok'
  have hks : stateKeystream s' s.len.toNat = stateKeystream s s.len.toNat := by
    rw [stateKeystream, stateKeystream, hstream, hcarry]
  rw [eq_of_exec_encrypt_ok h hok, eq_of_exec_encrypt_ok h' hok']
  refine ⟨?_, fun i hi => ?_⟩
  · simp [← hlen, hks]
  · have hbyte := encryptEffect_xor_source_congr hwf hwf' hr hr' hlie hlie' hlen.symm hi hks
    rw [hsrc i hi] at hbyte
    exact ((BitVec.xor_left_inj _).1 hbyte).symm

/-- Settles O43: both streams begin alike, and what `ENCRYPT` xors to the message twice is the same keystream. -/
theorem decryptUndoesEncrypt : Obligations.DecryptUndoesEncrypt := by
  intro a a' b b' s t u v nlen hkey hnonce hctr hra hrb ha hoka hb hokb hs hu hcarry hwf hwf' hr hr' hlie hlie' ht hokt hlen
    hmsg hv hokv i hi
  have hstream : u.stream = s.stream := by
    rw [hs, hu, sameInitSameStream a b a' b' nlen hkey hnonce hctr hra hrb ha hoka hb hokb]
  have hks : stateKeystream u s.len.toNat = stateKeystream s s.len.toNat := by
    rw [stateKeystream, stateKeystream, hstream, hcarry]
  rw [eq_of_exec_encrypt_ok ht hokt] at hmsg
  rw [eq_of_exec_encrypt_ok hv hokv, complete_mem]
  have hbyte := encryptEffect_xor_source_congr hwf hwf' hr hr' hlie hlie' hlen hi hks
  rw [hmsg i hi, complete_mem, BitVec.xor_comm] at hbyte
  exact (BitVec.xor_right_inj _).1 hbyte

/-- Settles O44: both parts' checks pass, and their effects one after the other are that of the whole. -/
theorem encryptIsResumable : Obligations.EncryptIsResumable := by
  intro s t m n hwf hp hr hlen hlie h hok
  have hallowed := encryptAllowed_of_ok h hok
  rw [eq_of_exec_encrypt_ok h hok]
  exact ⟨complete (encryptEffect (s.firstPart m)), complete (encryptEffect (s.secondPart m n)),
    exec_encrypt_of_allowed (encryptAllowed_firstPart hlen hallowed), rfl,
    exec_encrypt_of_allowed (encryptAllowed_secondPart hlen hallowed hp), rfl,
    encryptEffect_secondPart_mem hlen hwf hr hlie hallowed hp, encryptEffect_secondPart_stream hlen⟩

end Sys2Proof.Machine
end

/-! PROOFS. The errors of the commands (R200 to R209): which check raises each code, and that a command which raises one has
changed nothing but `ERR`. The checks are taken in the order of R207, so a lemma about one of them assumes that those before it
passed. -/

namespace Sys2Proof.Machine

/-! ## What a failed command leaves unchanged -/

/-- Of the ways a command ends only the error branch reports one; every other ends with `ERR` = `OK` (R106). -/
theorem exec_eq_withErr_of_failed {i : Instr} {s t : State} (h : exec i s = .next t) (hne : t.err ≠ .ok) :
    t = s.withErr t.err := by
  cases exec_cases h with
  | error => rfl
  | nop | empty | init | encrypt | keystream => exact absurd rfl hne

/-! ## The checks of INIT -/

section
variable {s : State} {klen nlen : Nat}

theorem exec_init_of_klen_ne (hk : klen ≠ 32) : exec (.init klen nlen) s = raiseError .invalidKeyLength s :=
  if_pos hk

theorem exec_init_of_nlen_ne (h8 : nlen ≠ 8) (h12 : nlen ≠ 12) :
    exec (.init 32 nlen) s = raiseError .invalidNonceLength s := by
  simp [exec, execInit, h8, h12]

/-- The key and the nonce buffer are checked together (R207), in exact integers (R56). -/
theorem exec_init_outside (hn : nlen = 8 ∨ nlen = 12)
    (hout : s.plat.memSize < s.keyaddr.toNat + 32 ∨ s.plat.memSize < s.nonceaddr.toNat + nlen) :
    exec (.init 32 nlen) s = raiseError .bufferTooSmall s := by
  have hlen : ¬ (nlen ≠ 8 ∧ nlen ≠ 12) := by omega
  simp only [exec, execInit, not_bufferValid_or_iff, ne_eq, not_true, if_false, if_neg hlen, if_pos hout]

end

/-! ## The checks of ENCRYPT and KEYSTREAM -/

section
variable {s : State}

theorem exec_encrypt_of_no_stream (h0 : s.initd = false) : exec .encrypt s = raiseError .notInitialized s :=
  if_pos h0

theorem exec_keystream_of_no_stream (h0 : s.initd = false) : exec .keystream s = raiseError .notInitialized s :=
  if_pos h0

theorem exec_encrypt_outside (h0 : s.initd = true) (hlen : 0 < s.len.toNat)
    (hout : s.plat.memSize < s.src.toNat + s.len.toNat ∨ s.plat.memSize < s.dst.toNat + s.len.toNat) :
    exec .encrypt s = raiseError .bufferTooSmall s := by
  simp only [exec, execEncrypt, not_bufferValid_or_iff, len_eq_zero_iff, h0, Bool.true_eq_false, if_false,
    if_neg hlen.ne', if_pos hout]

/-- `KEYSTREAM` checks its destination only (R163). -/
theorem exec_keystream_outside (h0 : s.initd = true) (hlen : 0 < s.len.toNat)
    (hout : s.plat.memSize < s.dst.toNat + s.len.toNat) : exec .keystream s = raiseError .bufferTooSmall s := by
  simp only [exec, execKeystream, not_bufferValid_iff, len_eq_zero_iff, h0, Bool.true_eq_false, if_false,
    if_neg hlen.ne', if_pos hout]

end

/-! ## The obligations -/

/-- Settles O31: an illegal word only raises its error, and a legal command that reports one took the error branch. -/
theorem failedCommandChangesOnlyErr : Obligations.FailedCommandChangesOnlyErr := by
  intro s t w h hne
  cases issueCommand_cases h with
  | illegal => rfl
  | legal _ _ _ he => exact exec_eq_withErr_of_failed he hne

/-- Settles O28: the key length is checked before the nonce length. -/
theorem initRejectsLengths : Obligations.InitRejectsLengths := fun _ _ _ =>
  ⟨exec_init_of_klen_ne, exec_init_of_nlen_ne⟩

/-- Settles O29: `INITD` is checked before `LEN` is looked at. -/
theorem applyNeedsAStream : Obligations.ApplyNeedsAStream := fun _ h0 =>
  ⟨exec_encrypt_of_no_stream h0, exec_keystream_of_no_stream h0⟩

/-- Settles O30: each command's buffer check fails, the checks before it having passed. -/
theorem outsideBuffersAreTooSmall : Obligations.OutsideBuffersAreTooSmall := fun _ =>
  ⟨fun _ => exec_init_outside, exec_encrypt_outside, exec_keystream_outside⟩

end Sys2Proof.Machine

/-! PROOFS. The reset input (R40, R230 to R232). While it is asserted the window answers and does nothing. A reset during a command
puts the engine into its reset state and frees the destination bytes that lie in memory; it goes through where the command itself
is not refused, and a command whose buffers are plain memory never is (R57). -/

namespace Sys2Proof.Machine

/-! ## The window while the reset is asserted -/

section
variable {s : State} {off width : Nat}

/-- A host's write has no effect (R230, assumption log 9). -/
theorem step_write_window_inReset (v : Word) (hp : s.plat.wf = true) (hr : s.inReset = true) (ho : off < 0x100) :
    step (withTxn s (.write (s.plat.regBase + off) width v)) = .next { s with bus := [] } := by
  rw [step_withTxn _ hp]
  simp [perform, hostWrite, windowOffset_base _ ho, hr]

/-- A host's read returns a free word (R230, assumption log 9). -/
theorem step_read_window_inReset (hp : s.plat.wf = true) (hr : s.inReset = true) (ho : off < 0x100) :
    step (withTxn s (.read (s.plat.regBase + off) width)) =
      .next { s with bus := [], rdata := freeWord .resetRead s.draws, draws := s.draws + 1 } := by
  rw [step_withTxn _ hp]
  simp [perform, hostRead, windowOffset_base _ ho, hr]

end

/-! ## Commands over plain memory are not refused -/

/-- The first bytes of a plain buffer are a plain buffer. -/
theorem plainBuffer_of_le {p : Platform} {a m n : Nat} (h : plainBuffer p a n) (hmn : m ≤ n) : plainBuffer p a m :=
  fun x hlow hhigh => h x hlow (hhigh.trans_le (Nat.add_le_add_left hmn a))

section
variable {s : State}

theorem execInit_goesOn {klen nlen : Nat} (hk : plainBuffer s.plat s.keyaddr.toNat 32)
    (hn : plainBuffer s.plat s.nonceaddr.toNat nlen) : goesOn (execInit klen nlen s) := by
  rw [← touchesDevice_eq_false] at hk hn
  simp only [execInit, raiseError, hk, hn, Bool.or_self, Bool.false_eq_true, if_false]
  split_ifs <;> exact ⟨_, rfl⟩

theorem execEncrypt_goesOn (hs : plainBuffer s.plat s.src.toNat s.len.toNat)
    (hd : plainBuffer s.plat s.dst.toNat s.len.toNat) : goesOn (execEncrypt s) := by
  rw [← touchesDevice_eq_false] at hs hd
  simp only [execEncrypt, raiseError, hs, hd, Bool.or_self, Bool.false_eq_true, if_false]
  split_ifs <;> exact ⟨_, rfl⟩

theorem execKeystream_goesOn (hd : plainBuffer s.plat s.dst.toNat s.len.toNat) : goesOn (execKeystream s) := by
  rw [← touchesDevice_eq_false] at hd
  simp only [execKeystream, raiseError, hd, Bool.false_eq_true, if_false]
  split_ifs <;> exact ⟨_, rfl⟩

end

section
variable {s : State} {w : Word}

/-- A command word whose buffers are plain memory completes or reports an error (R57). -/
theorem issueCommand_goesOn (h : ∀ b n, (b, n) ∈ commandBuffers w s → plainBuffer s.plat b n) :
    goesOn (issueCommand w s) := by
  unfold issueCommand
  split
  case h_1 i hd =>
    simp only [commandBuffers, hd] at h
    cases i with
    | nop => exact ⟨_, rfl⟩
    | init => exact execInit_goesOn (h _ _ (by simp)) (h _ _ (by simp))
    | encrypt => exact execEncrypt_goesOn (h _ _ (by simp)) (h _ _ (by simp))
    | keystream => exact execKeystream_goesOn (h _ _ (by simp))
  case h_2 => exact ⟨_, rfl⟩

/-! ## The bytes that an interruption frees -/

/-- A command's destination is one of its buffers (R51). -/
theorem mem_commandBuffers_of_destBuffer {i : Instr} {b n : Nat} (hd : decode w = .ok i)
    (hb : destBuffer i s = some (b, n)) : (b, n) ∈ commandBuffers w s := by
  cases i with
  | nop | init => cases hb
  | encrypt | keystream => cases hb; simp [commandBuffers, hd]

/-- The bytes freed are those of the destination buffer that lie in memory; where there is no such buffer, none. -/
theorem interruptedBuffer_cases (w : Word) (s : State) :
    interruptedBuffer w s = (0, 0) ∨
      ∃ i b n, decode w = .ok i ∧ destBuffer i s = some (b, n) ∧
        interruptedBuffer w s = (b, min n (s.plat.memSize - b)) := by
  unfold interruptedBuffer
  split
  case h_1 i hd =>
    split
    case h_1 b n hb => exact .inr ⟨i, b, n, hd, hb, rfl⟩
    case h_2 => exact .inl rfl
  case h_2 => exact .inl rfl

/-- They have no side effects where the command's buffers have none. -/
theorem touchesDevice_interruptedBuffer (h : ∀ b n, (b, n) ∈ commandBuffers w s → plainBuffer s.plat b n) :
    touchesDevice s.plat (interruptedBuffer w s).1 (interruptedBuffer w s).2 = false := by
  rw [touchesDevice_eq_false]
  rcases interruptedBuffer_cases w s with h0 | ⟨i, b, n, hd, hb, heq⟩
  · rw [h0]
    intro x hlow hhigh
    exact absurd hhigh (Nat.not_lt.2 hlow)
  · rw [heq]
    exact plainBuffer_of_le (h b n (mem_commandBuffers_of_destBuffer hd hb)) (Nat.min_le_left _ _)

/-- An address outside the destination buffer is outside the bytes freed. -/
theorem interruptedBuffer_outside {a : Nat}
    (h : ∀ i b n, decode w = .ok i → destBuffer i s = some (b, n) → a < b ∨ b + n ≤ a) :
    a < (interruptedBuffer w s).1 ∨ (interruptedBuffer w s).1 + (interruptedBuffer w s).2 ≤ a := by
  rcases interruptedBuffer_cases w s with h0 | ⟨i, b, n, hd, hb, heq⟩
  · rw [h0]
    exact .inr (Nat.zero_le a)
  · have hout := h i b n hd hb
    rw [heq]
    dsimp only
    omega

/-! ## A reset during a command -/

/-- The machine after a reset during the command of `w` (R232): a fresh engine, and free bytes in the destination buffer. -/
def interruptedState (w : Word) (s : State) : State :=
  { engineReset s with
    inReset := true
    mem := s.mem.writeBytes (interruptedBuffer w s).1
      (Config.freeBytes .resetDuring s.draws (interruptedBuffer w s).2)
    draws := s.draws + 1 }

/-- Memory outside the destination buffer is as it was (R232). -/
theorem interruptedState_read_outside {a : Nat} (hwf : s.mem.wf)
    (h : ∀ i b n, decode w = .ok i → destBuffer i s = some (b, n) → a < b ∨ b + n ≤ a) :
    (interruptedState w s).mem.read a = s.mem.read a :=
  Memory.read_writeBytes_outside hwf (by simpa using interruptedBuffer_outside h)

theorem resetDuringCommand_of_goesOn (hr : s.inReset = false) (h : goesOn (issueCommand w s))
    (hdev : touchesDevice s.plat (interruptedBuffer w s).1 (interruptedBuffer w s).2 = false) :
    resetDuringCommand w s = .next (interruptedState w s) := by
  obtain ⟨t, ht⟩ := h
  simp [resetDuringCommand, hr, ht, hdev, interruptedState]

/-- A refused command is refused alike when a reset interrupts it (assumption log 10). -/
theorem resetDuringCommand_of_refused {r : Refusal} (hr : s.inReset = false) (h : issueCommand w s = .refused r) :
    resetDuringCommand w s = .refused r := by
  simp [resetDuringCommand, hr, h]

end

/-! ## The obligations -/

/-- Settles O50: both edges of the reset write the reset values, and the window in between is that of the lemmas above. -/
theorem resetInput : Obligations.ResetInput := by
  intro s hp
  exact ⟨step_withTxn _ hp, ⟨_, step_withTxn _ hp, rfl, rfl⟩,
    fun hr => ⟨fun _ _ v ho => step_write_window_inReset v hp hr ho,
      fun _ _ ho => ⟨_, _, step_read_window_inReset hp hr ho⟩⟩⟩

/-- Settles O51: over plain buffers the command is not refused, so the reset goes through and frees only destination bytes. -/
theorem resetDuringACommand : Obligations.ResetDuringACommand := by
  rintro s w ⟨hp, hr⟩ hwf
  rw [step_withTxn _ hp]
  refine ⟨fun hplain => ?_, resetDuringCommand_of_refused (s := { s with bus := [] }) hr⟩
  exact ⟨_,
    resetDuringCommand_of_goesOn (s := { s with bus := [] }) hr (issueCommand_goesOn hplain)
      (touchesDevice_interruptedBuffer hplain),
    rfl, rfl, rfl, rfl, rfl, rfl, rfl, rfl, rfl, rfl, Memory.wf_writeBytes hwf _ _,
    fun _ ha => interruptedState_read_outside (s := { s with bus := [] }) hwf ha⟩

/-- Settles O49: the reset values of R40, read through `STATUS`, `KPOS` and `S0` to `S15`; with no stream begun, `ENCRYPT` and
`KEYSTREAM` report so. -/
theorem resetValues : Obligations.ResetValues :=
  ⟨by decide, rfl, rfl, rfl, rfl, by decide, rfl, rfl, rfl, rfl, rfl, rfl, rfl,
    fun i => Vector.getElem_replicate i.isLt, exec_encrypt_of_no_stream rfl, exec_keystream_of_no_stream rfl⟩

end Sys2Proof.Machine
